-- ==== Sys2Proof/Word.lean ====
section
/-! DEFINITION. The word types of the engine: widths of 00_scope.md R5, bit strings of R6. -/

namespace Sys2Proof

/-- A host register or a command word: REG_W = 32 bits (R5). -/
abbrev Word := BitVec 32

/-- A byte of MEM, 8 bits (R60). -/
abbrev Byte := BitVec 8

/-- A symbol is one byte, SYM_W = 8 (R5). -/
abbrev Symbol := BitVec 8

/-- A frequency count or node frequency, CNT_W = 32 bits (R5). -/
abbrev Count := BitVec 32

/-- A node index, NIDX_W = 9 bits (R5). -/
abbrev NodeIdx := BitVec 9

/-- A bit string, position 0 (the head) first; `true` is the bit 1 (R6). -/
abbrev Bits := List Bool

end Sys2Proof
end

