-- ==== Sys2Proof/Config.lean ====
section
/-! DEFINITION. The parameters of 00_scope.md R5 and the one free value of the spec, the contents of
MEM that nothing has written (10_state.md R50). -/

namespace Sys2Proof.Config

/-- NSYM, the number of possible symbols (R5). -/
abbrev nsym : Nat := 256

/-- MAXNODES, the capacity of the node table (R5). -/
abbrev maxNodes : Nat := 511

/-- MAXLEN, the greatest length of a code in bits (R5). -/
abbrev maxLen : Nat := 255

/-- NONE, the node index that means "no node" (R5). -/
abbrev noNode : NodeIdx := 0x1FF#9

/-- NREG, the number of register numbers on the host port (R5). -/
abbrev nreg : Nat := 32

/-- The bound of R5 on MEM_SIZE. -/
abbrev memSizeMax : Nat := 2 ^ 28

/-- The parameters left open by R5: an argument of the model, carried by `State.params`, written by
nothing. -/
structure Params where
  /-- MEM_SIZE, the number of bytes of MEM (R5, R60). -/
  memSize : Nat
deriving DecidableEq, Repr

/-- The default of R5: MEM_SIZE = 65536. -/
def Params.default : Params := { memSize := 65536 }

/-- FREE VALUE (R50, 93_implementation_defined.md V1): what byte `addr` of MEM holds after the
`epoch`-th reset until something writes it. No rule says which value, so nothing here does. -/
opaque unwrittenByte (epoch addr : Nat) : Byte

end Sys2Proof.Config
end

