-- ==== Sys2Proof/Syntax.lean ====
section
/-! DEFINITION. The seven commands of the engine (30_encoding.md R86), one constructor per row of
spec/opcode_table.json. A command word carries no operand (R85). -/

namespace Sys2Proof

/-- The command set (R86). -/
inductive Instr
  /-- CLEAR: discard the run (R197). -/
  | clear
  /-- ANALYZE: the FrequencyAnalyzer (R111). -/
  | analyze
  /-- BUILD: the TreeBuilder (R122). -/
  | build
  /-- GENCODE: the CodeTableGenerator (R137). -/
  | gencode
  /-- PACK: the BitPacker (R152). -/
  | pack
  /-- UNPACK: the BitUnpacker and symbol Decoder (R172). -/
  | unpack
  /-- FACK: fault acknowledge (R198). -/
  | fack
deriving DecidableEq, Repr

end Sys2Proof
end

