-- ==== Sys2Proof/WellFormed.lean ====
section
/-! DEFINITION. What is well formed before it reaches the machine: a command, a command word (format
C, 30_encoding.md R84 and R90) and the parameters of 00_scope.md R5. -/

namespace Sys2Proof.WellFormed

/-- R85: a command has no operand, so every command is well formed. -/
def instr : Instr → Bool
  | .clear => true
  | .analyze => true
  | .build => true
  | .gencode => true
  | .pack => true
  | .unpack => true
  | .fack => true

/-- R84, R90: the reserved field RSV, bits 31:8, must be 0. -/
def reservedZero (w : Word) : Bool := w.toNat < 256

/-- R86, R90: the field OP, bits 7:0, must be one of the opcodes 0x01 to 0x07. -/
def opcodeAssigned (w : Word) : Bool := 1 ≤ w.toNat % 256 && w.toNat % 256 ≤ 7

/-- R90: a word is legal when both fields are. -/
def commandWord (w : Word) : Bool := reservedZero w && opcodeAssigned w

/-- R5: 1 ≤ MEM_SIZE ≤ 2^28. -/
def params (p : Config.Params) : Bool := 1 ≤ p.memSize && p.memSize ≤ Config.memSizeMax

end Sys2Proof.WellFormed
end

