-- ==== Sys2Proof/Decode.lean ====
section
/-! DEFINITION. The command decoder of 30_encoding.md R84 to R91, total on every 32-bit word, the
encoder beside it, and the opcode table as rows of mask and match. -/

namespace Sys2Proof

/-- Why a word is no command (R90). -/
inductive DecodeReject
  /-- RSV, bits 31:8, is not 0. -/
  | reservedNotZero
  /-- RSV is 0 and OP is 0x00 or 0x08 to 0xFF. -/
  | opcodeUnassigned
deriving DecidableEq, Repr

/-- What a word decodes to: exactly one of the seven commands, or illegal (R87). -/
inductive Decoded
  | command (i : Instr)
  | illegal (why : DecodeReject)
deriving DecidableEq, Repr

/-- OP, bits 7:0 (R84). -/
def opField (w : Word) : BitVec 8 := w.extractLsb' 0 8

/-- RSV, bits 31:8 (R84). -/
def rsvField (w : Word) : BitVec 24 := w.extractLsb' 8 24

/-- The command an opcode selects (R86). -/
def commandOfOpcode : Nat → Option Instr
  | 1 => some .clear
  | 2 => some .analyze
  | 3 => some .build
  | 4 => some .gencode
  | 5 => some .pack
  | 6 => some .unpack
  | 7 => some .fack
  | _ => none

/-- R87: RSV is looked at first, then OP. -/
def decode (w : Word) : Decoded :=
  if rsvField w = 0 then
    match commandOfOpcode (opField w).toNat with
    | some i => .command i
    | none => .illegal .opcodeUnassigned
  else .illegal .reservedNotZero

/-- The OP value of a command (R86). -/
def opcode : Instr → BitVec 8
  | .clear => 0x01
  | .analyze => 0x02
  | .build => 0x03
  | .gencode => 0x04
  | .pack => 0x05
  | .unpack => 0x06
  | .fack => 0x07

/-- The command word of a command: RSV = 0 above OP (R84). -/
def encode (i : Instr) : Word := (0#24 ++ opcode i : BitVec 32)

/-- One row of the opcode table as R87 uses it. -/
structure OpcodeRow where
  mask : Word
  pattern : Word
  command : Instr
deriving DecidableEq, Repr

/-- The seven rows of R86: every mask is 0xFFFFFFFF. -/
def opcodeTable : List OpcodeRow :=
  [ { mask := 0xFFFFFFFF, pattern := 0x00000001, command := .clear },
    { mask := 0xFFFFFFFF, pattern := 0x00000002, command := .analyze },
    { mask := 0xFFFFFFFF, pattern := 0x00000003, command := .build },
    { mask := 0xFFFFFFFF, pattern := 0x00000004, command := .gencode },
    { mask := 0xFFFFFFFF, pattern := 0x00000005, command := .pack },
    { mask := 0xFFFFFFFF, pattern := 0x00000006, command := .unpack },
    { mask := 0xFFFFFFFF, pattern := 0x00000007, command := .fack } ]

/-- R87: word `w` matches a row when (w AND mask) = match. -/
def OpcodeRow.hits (r : OpcodeRow) (w : Word) : Bool := w &&& r.mask == r.pattern

/-- The decoder that R87 says can be written from the table alone. -/
def decodeByTable (w : Word) : Option Instr := (opcodeTable.find? (·.hits w)).map (·.command)

/-- What the decoder reads from the word whose `nbits` bits are `w`, bit 0 least significant. All
commands are 32 bits long (R88); a number that needs more bits is no command word. -/
def decodeTableWord (nbits w : Nat) : Option Instr :=
  let v := w % 2 ^ nbits
  if v < 2 ^ 32 then
    match decode (BitVec.ofNat 32 v) with
    | .command i => some i
    | .illegal _ => none
  else none

end Sys2Proof
end

