-- ==== Sys2Proof/Machine/State.lean ====
section
/-! DEFINITION. The state of the engine (10_state.md) as plain data, the host's transactions
(30_encoding.md R80), the reasons a step can stop, and the state after reset (R48). -/

namespace Sys2Proof.Machine

/-- The mapped host registers (R21). -/
inductive Reg
  | cmd | status | err | errInfo
  | src | slen | dst | dcap
  | rlen | plen | extra
  | ndist | nnodes | root
  | tsel
  /-- TD0 to TD8, the window data views (R32). -/
  | td (k : Fin 9)
deriving DecidableEq, Repr

/-- STATUS, register 1 (R23): the four flags; bits 31:4 are reserved and read 0. -/
structure Status where
  /-- Bit 0, FAULT. -/
  fault : Bool
  /-- Bit 1, FT_VALID. -/
  ftValid : Bool
  /-- Bit 2, TREE_VALID. -/
  treeValid : Bool
  /-- Bit 3, CT_VALID. -/
  ctValid : Bool
deriving DecidableEq, Repr

/-- The seven fault causes of the engine (R216). -/
inductive Cause
  | illegalCmd | seq | range | noCode | dstCap | format | unterminated
deriving DecidableEq, Repr

/-- `raise F(info)` of R9: the cause and the detail word for ERRINFO. -/
structure Raised where
  cause : Cause
  info : Word
deriving DecidableEq, Repr

/-- One entry of NODE (R35). -/
structure Node where
  leaf : Bool
  sym : Symbol
  freq : Count
  left : NodeIdx
  right : NodeIdx
deriving DecidableEq, Repr

/-- One entry of REV (R40); its field len is the length of `bits`. -/
structure RevEntry where
  sym : Symbol
  bits : Bits
deriving DecidableEq, Repr

/-- Data by key, a list of (key, value) pairs; in the canonical form the keys strictly rise. -/
abbrev Cells (α : Type) := List (Nat × α)

/-- MEM (R60): the bytes that something has written, by address. An unlisted address holds no
written byte; what it reads as is the free value `Config.unwrittenByte` (R50). -/
abbrev Memory := List Host.Cell

/-- The four kinds of host transaction (R80). -/
inductive Transaction
  /-- RD r, register read (R81). -/
  | rd (r : Word)
  /-- WR r, v, register write (R82). -/
  | wr (r v : Word)
  /-- MR a, memory read (R65). -/
  | mr (a : Word)
  /-- MW a, v, memory write (R65). -/
  | mw (a v : Word)
deriving DecidableEq, Repr

/-- What arrives at the engine from outside: a transaction (R190) or the reset event (R245). -/
inductive HostEvent
  | reset
  | tx (t : Transaction)
deriving DecidableEq, Repr

/-- The whole state. The engine's own: every register of R21 that holds a value, the tables of R33 to
R42, MEM. The model's own: `memEpoch`, `pending`, `reply` (notes/assumptions/1.md, 3.md, 4.md). -/
structure State where
  /-- MEM_SIZE, the open parameter (R5). -/
  params : Config.Params
  /-- STATUS, register 1 (R23). -/
  status : Status
  /-- ERR[3:0], register 2 (R26). -/
  err : BitVec 4
  /-- ERRINFO, register 3 (R26). -/
  errInfo : Word
  /-- SRC, register 4 (R27). -/
  src : Word
  /-- SLEN, register 5 (R27). -/
  slen : Word
  /-- DST, register 6 (R27). -/
  dst : Word
  /-- DCAP, register 7 (R27). -/
  dcap : Word
  /-- RLEN, register 8 (R29). -/
  rlen : Word
  /-- PLEN, register 9 (R29). -/
  plen : Word
  /-- EXTRA[7:0], register 10 (R29). -/
  extra : Byte
  /-- NDIST[8:0], register 11 (R30). -/
  ndist : BitVec 9
  /-- NNODES[8:0], register 12 (R30). -/
  nnodes : BitVec 9
  /-- ROOT[8:0], register 13 (R30). -/
  root : NodeIdx
  /-- TSEL[10:0], register 14 (R31). -/
  tsel : BitVec 11
  /-- FREQ by symbol value (R33); an unlisted symbol has count 0 (R34). -/
  freq : Cells Count
  /-- NODE in index order (R35). -/
  node : List Node
  /-- CODE by symbol value (R38); an unlisted symbol has valid = 0. -/
  code : Cells Bits
  /-- REV in entry order (R40). -/
  rev : List RevEntry
  /-- The written bytes of MEM (R60). -/
  mem : Memory
  /-- How many reset events there have been: the argument of the free value (R50). -/
  memEpoch : Nat
  /-- What the host sends from here on, next event first (R190, R245). -/
  pending : List HostEvent
  /-- The value the last transaction returned: RD and MR return one, WR and MW none (R81, R82). -/
  reply : Option Word
deriving DecidableEq, Repr

/-- Why the model stops. The engine itself never does (R204): its faults are next states (R221). -/
inductive Fault
  /-- Raised by GENCODE, only where its walk meets a NODE entry that does not exist or goes deeper
  than NNODES levels, which no tree does (R37, R141): no run from reset reaches such a state. SAFE. -/
  | treeBroken
deriving DecidableEq, Repr

/-- Why the model has no meaning for a command. -/
inductive Refusal
  /-- Raised by `exec` for a command that has no meaning yet; there is none left. SAFE. -/
  | notModelled (mnemonic : String)
deriving DecidableEq, Repr

/-- What a meaning answers. -/
abbrev Result := Host.Outcome State Fault Refusal

/-- STATUS after reset (R48). -/
def Status.reset : Status :=
  { fault := false, ftValid := false, treeValid := false, ctValid := false }

/-- The state after reset, R48 and R246, with MEM_SIZE at its default (R5), nothing written in MEM
(R50), no event pending and no value returned yet. -/
def State.reset : State :=
  { params := Config.Params.default
    status := Status.reset
    err := 0, errInfo := 0
    src := 0, slen := 0, dst := 0, dcap := 0
    rlen := 0, plen := 0, extra := 0
    ndist := 0, nnodes := 0, root := Config.noNode
    tsel := 0
    freq := [], node := [], code := [], rev := []
    mem := [], memEpoch := 0
    pending := [], reply := none }

end Sys2Proof.Machine
end

