-- ==== Sys2Proof/Machine/Ops.lean ====
section
/-! DEFINITION. The named operations over bit strings, tables, MEM and the fault registers that the
meanings share: 00_scope.md R6 to R9, 20_memory.md R63 and R64, 60_exceptions.md R221 and R227. -/

namespace Sys2Proof.Machine

/-! ### Bit strings and bytes (R6, R7) -/

/-- `zeros(k)` of R6. -/
def zeros (k : Nat) : Bits := List.replicate k false

/-- `bits8(v)` of R7: position k holds bit 7 − k of v. -/
def bits8 (v : Byte) : Bits := (List.range 8).map fun k => v.getLsbD (7 - k)

/-- The number a bit string stands for, first bit most significant. -/
def natOfBits (b : Bits) : Nat := b.foldl (fun n x => 2 * n + x.toNat) 0

/-- `byte(b)` of R7, for a string of 8 bits: the sum of b[k]·2^(7−k). -/
def byteOfBits (b : Bits) : Byte := BitVec.ofNat 8 (natOfBits b)

/-- The symbols 0 to 255 in ascending order: `for s in 0..255` of R9. -/
def allSymbols : List Symbol := (List.range Config.nsym).map (BitVec.ofNat 8)

/-! ### Data by key -/

/-- The value at a key. -/
def cellGet {α : Type} : Cells α → Nat → Option α
  | [], _ => none
  | (k, v) :: m, a => if a = k then some v else cellGet m a

/-- Set the value at a key and change no other; keeps the keys strictly rising. -/
def cellPut {α : Type} : Cells α → Nat → α → Cells α
  | [], a, v => [(a, v)]
  | (k, w) :: m, a, v =>
    if a < k then (a, v) :: (k, w) :: m
    else if a = k then (a, v) :: m
    else (k, w) :: cellPut m a v

/-- The canonical form of data by key: strictly rising keys. -/
abbrev Rising {α : Type} (m : Cells α) : Prop := m.Pairwise fun a b => a.1 < b.1

/-- The canonical form of MEM: rising addresses, all below MEM_SIZE (R60). -/
abbrev Memory.wf (size : Nat) (m : Memory) : Prop := Rising m ∧ ∀ c ∈ m, c.1 < size

/-! ### Table entries (R33, R38) -/

/-- FREQ[s]; 0 for a symbol that is no key (R34). -/
def freqAt (t : Cells Count) (s : Symbol) : Count := (cellGet t s.toNat).getD 0

/-- CODE[s]: its bits when valid, none when valid = 0 (R38). -/
def codeAt (t : Cells Bits) (s : Symbol) : Option Bits := cellGet t s.toNat

/-- NODE[i], which exists for i < NNODES (R35). -/
def State.nodeAt (s : State) (i : Nat) : Option Node :=
  if i < s.nnodes.toNat then s.node[i]? else none

/-- REV[0] to REV[NDIST − 1], the entries a lookup goes through (R40). -/
def State.revEntries (s : State) : List RevEntry := s.rev.take s.ndist.toNat

/-! ### MEM (R63, R64) -/

/-- `MemRead(a, 1)`: the byte written there, or the free value when nothing has written it (R50). -/
def State.readByte (s : State) (a : Nat) : Byte :=
  (cellGet s.mem a).getD (Config.unwrittenByte s.memEpoch a)

/-- `MemWrite(a, 1, v)`: sets byte a and nothing else. -/
def State.writeByte (s : State) (a : Nat) (v : Byte) : State := { s with mem := cellPut s.mem a v }

/-- The bytes at base, base + 1, …, base + n − 1 (R10). -/
def State.readBytes (s : State) (base n : Nat) : List Byte :=
  (List.range n).map fun i => s.readByte (base + i)

/-- Bytes laid out upwards from an address, in a memory. -/
def memWriteBytes : Memory → Nat → List Byte → Memory
  | m, _, [] => m
  | m, a, v :: vs => memWriteBytes (cellPut m a v) (a + 1) vs

/-- `for i: MemWrite(base + i, 1, bs[i])` (R155, R177). -/
def State.writeBytes (s : State) (base : Nat) (bs : List Byte) : State :=
  { s with mem := memWriteBytes s.mem base bs }

/-! ### Emptying tables (R44) -/

/-- FREQ emptied: FREQ[s] = 0 for all s and NDIST = 0. -/
def State.emptyFreq (s : State) : State := { s with freq := [], ndist := 0 }

/-- NODE emptied: NNODES = 0 and ROOT = NONE. -/
def State.emptyTree (s : State) : State :=
  { s with node := [], nnodes := 0, root := Config.noNode }

/-- CODE and REV emptied. -/
def State.emptyCodes (s : State) : State := { s with code := [], rev := [] }

/-- RLEN, PLEN and EXTRA as a completed PACK or UNPACK writes them (R29). -/
def State.setResult (s : State) (bytes payloadBits extra : Nat) : State :=
  { s with
    rlen := BitVec.ofNat 32 bytes
    plen := BitVec.ofNat 32 payloadBits
    extra := BitVec.ofNat 8 extra }

/-! ### Fault entry and return (R216, R221, R227) -/

/-- The code ERR holds for a cause (R216). -/
def Cause.code : Cause → BitVec 4
  | .illegalCmd => 1
  | .seq => 2
  | .range => 3
  | .noCode => 4
  | .dstCap => 5
  | .format => 6
  | .unterminated => 7

/-- Fault entry, R221: FAULT, ERR and ERRINFO are written and nothing else. -/
def State.raise (s : State) (r : Raised) : State :=
  { s with
    status := { s.status with fault := true }
    err := r.cause.code
    errInfo := r.info }

/-- Fault return, R227: FAULT, ERR and ERRINFO are cleared and nothing else. -/
def State.acknowledge (s : State) : State :=
  { s with
    status := { s.status with fault := false }
    err := 0
    errInfo := 0 }

/-- The end of a command, R192 and R193: the state its pseudocode produced, or fault entry on the state
before it. -/
def State.finish (s : State) : Except Raised State → Result
  | .ok t => .next t
  | .error r => .next (s.raise r)

/-! ### The host's events (R190, R245) -/

/-- Take the first pending event; no value is returned yet. -/
def State.takeEvent (s : State) (rest : List HostEvent) : State :=
  { s with pending := rest, reply := none }

/-- The reset event, R245 and R246: every register and table at its reset value, nothing known of MEM
(R50); MEM_SIZE and what the host has still to send stay. -/
def State.resetEvent (s : State) : State :=
  { State.reset with
    params := s.params
    memEpoch := s.memEpoch + 1
    pending := s.pending }

end Sys2Proof.Machine
end

