-- ==== Sys2Proof/Machine/Flags.lean ====
section
/-! DEFINITION. The STATUS register: its word (10_state.md R23) and what each command makes of the
stage flags (R25, 45_control.md R195). -/

namespace Sys2Proof.Machine

/-- STATUS as the host reads it, R23: FAULT in bit 0, FT_VALID in bit 1, TREE_VALID in bit 2, CT_VALID in
bit 3, the rest 0. -/
def Status.word (f : Status) : Word :=
  BitVec.ofNat 32
    (f.fault.toNat + 2 * f.ftValid.toNat + 4 * f.treeValid.toNat + 8 * f.ctValid.toNat)

/-- Stage flags after ANALYZE: F = 1, T = 0, C = 0 (R195). -/
def Status.afterAnalyze (f : Status) : Status :=
  { f with ftValid := true, treeValid := false, ctValid := false }

/-- Stage flags after BUILD: T = 1, C = 0 (R195). -/
def Status.afterBuild (f : Status) : Status := { f with treeValid := true, ctValid := false }

/-- Stage flags after GENCODE: C = 1 (R195). -/
def Status.afterGencode (f : Status) : Status := { f with ctValid := true }

/-- The stage precondition of BUILD, GENCODE, PACK and UNPACK: SEQ with the command's opcode when the
flag is clear (R218). -/
def needStage (flag : Bool) (i : Instr) : Except Raised Unit :=
  if flag then .ok () else .error { cause := .seq, info := encode i }

end Sys2Proof.Machine
end

