-- ==== Sys2Proof/Machine/Operands.lean ====
section
/-! DEFINITION. The operand registers SRC, SLEN, DST, DCAP (10_state.md R27, 30_encoding.md R85) and the
range check (20_memory.md R66). Sums are of naturals and cannot wrap. -/

namespace Sys2Proof.Machine

/-- `src_ok` of R66. -/
def State.srcOk (s : State) : Bool := s.src.toNat + s.slen.toNat ≤ s.params.memSize

/-- `dst_ok` of R66. -/
def State.dstOk (s : State) : Bool := s.dst.toNat + s.dcap.toNat ≤ s.params.memSize

/-- `disjoint` of R66. -/
def State.disjoint (s : State) : Bool :=
  s.slen.toNat = 0 || s.dcap.toNat = 0
    || s.src.toNat + s.slen.toNat ≤ s.dst.toNat || s.dst.toNat + s.dcap.toNat ≤ s.src.toNat

/-- The range check of ANALYZE (R66): RANGE(0). -/
def State.checkSource (s : State) : Except Raised Unit :=
  if s.srcOk then .ok () else .error { cause := .range, info := 0 }

/-- The range check of PACK and UNPACK (R66): RANGE(0), RANGE(1), RANGE(2) in this order. -/
def State.checkRegions (s : State) : Except Raised Unit :=
  if !s.srcOk then .error { cause := .range, info := 0 }
  else if !s.dstOk then .error { cause := .range, info := 1 }
  else if !s.disjoint then .error { cause := .range, info := 2 }
  else .ok ()

/-- The bytes of [SRC, SRC + SLEN): the text of ANALYZE and PACK, the artifact of UNPACK (R27). -/
def State.sourceBytes (s : State) : List Byte := s.readBytes s.src.toNat s.slen.toNat

end Sys2Proof.Machine
end

