-- ==== Sys2Proof/Machine/Command.lean ====
section
/-! DEFINITION. How a command word is taken (45_control.md R191, R192, 30_encoding.md R90). -/

namespace Sys2Proof.Machine

/-- What becomes of a command word. -/
inductive Taken
  /-- The command is executed. -/
  | run (i : Instr)
  /-- The word is dropped: nothing is executed and no state changes (R191). -/
  | dropped
  /-- The word is illegal and faults with ILLEGAL_CMD (R90). -/
  | illegal
deriving DecidableEq, Repr

/-- R192: while FAULT is set only CLEAR and FACK are executed and every other word is dropped; otherwise
a command is executed and an illegal word faults. -/
def takeCommand (fault : Bool) (w : Word) : Taken :=
  match fault, decode w with
  | true, .command .clear => .run .clear
  | true, .command .fack => .run .fack
  | true, _ => .dropped
  | false, .command i => .run i
  | false, .illegal _ => .illegal

/-- ILLEGAL_CMD with ERRINFO = the word (R217). -/
def State.illegalCommand (s : State) (w : Word) : State := s.raise { cause := .illegalCmd, info := w }

end Sys2Proof.Machine
end

