-- ==== Sys2Proof/Machine/Analyze.lean ====
section
/-! DEFINITION. ANALYZE, the FrequencyAnalyzer (40_analyze.md R110 to R114). -/

namespace Sys2Proof.Machine

/-- `cnt[s] := cnt[s] + 1` of R111, on naturals. -/
def countOne (cnt : Cells Nat) (s : Symbol) : Cells Nat :=
  cellPut cnt s.toNat ((cellGet cnt s.toNat).getD 0 + 1)

/-- The counting loop of R111: one pass over the text, from all counts 0. -/
def countText (text : List Symbol) : Cells Nat := text.foldl countOne []

/-- `number of s in 0..255 with cnt[s] > 0` (R111). -/
def distinct (cnt : Cells Nat) : Nat :=
  (allSymbols.filter fun s => 0 < (cellGet cnt s.toNat).getD 0).length

/-- The FrequencyTable of a text: each count as a 32-bit field (R33). -/
def freqTable (text : List Symbol) : Cells Count :=
  (countText text).map fun c => (c.1, BitVec.ofNat 32 c.2)

/-- The commit of R111: FREQ and NDIST written, NODE, CODE and REV emptied, the stage flags set. -/
def State.commitAnalyze (s : State) (text : List Symbol) : State :=
  { s.emptyTree.emptyCodes with
    freq := freqTable text
    ndist := BitVec.ofNat 9 (distinct (countText text))
    status := s.status.afterAnalyze }

/-- ANALYZE, R111. -/
def execAnalyze (s : State) : Result :=
  s.finish <|
    match s.checkSource with
    | .error r => .error r
    | .ok () => .ok (s.commitAnalyze s.sourceBytes)

end Sys2Proof.Machine
end

