-- ==== Sys2Proof/Machine/Build.lean ====
section
/-! DEFINITION. BUILD, the TreeBuilder (41_build.md R120 to R130). -/

namespace Sys2Proof.Machine

/-- An index in the queue, with the frequency of its node: what the order of R121 looks at. -/
structure Queued where
  freq : Count
  idx : NodeIdx
deriving DecidableEq, Repr

/-- The order of the queue, R121: by frequency, then by index, both unsigned. -/
def Queued.before (a b : Queued) : Bool :=
  a.freq.toNat < b.freq.toNat || (a.freq = b.freq && a.idx.toNat < b.idx.toNat)

/-- `Q := Q ∪ {n}`: the queue is kept in the order of R121, so that its head is what popmin removes and
returns (R123: how the queue is built does not matter). -/
def enqueue (e : Queued) : List Queued → List Queued
  | [] => [e]
  | x :: q => if e.before x then e :: x :: q else x :: enqueue e q

/-- The leaves, R124: one for each symbol with FREQ[s] > 0, in ascending order of s. -/
def leafNodes (freq : Cells Count) : List Node :=
  (allSymbols.filter fun s => 0 < (freqAt freq s).toNat).map fun s =>
    { leaf := true, sym := s, freq := freqAt freq s,
      left := Config.noNode, right := Config.noNode }

/-- The queue entry of NODE[i]. -/
def queuedOf (n : Node) (i : Nat) : Queued := { freq := n.freq, idx := BitVec.ofNat 9 i }

/-- The queue that holds nodes i, i + 1, … of a list. -/
def queueOf : List Node → Nat → List Queued
  | [], _ => []
  | n :: ns, i => enqueue (queuedOf n i) (queueOf ns (i + 1))

/-- The internal node made from the two popped entries, R125: symbol none, frequency the sum, the first
popped left, the second right. -/
def mergedNode (a b : Queued) : Node :=
  { leaf := false, sym := 0, freq := a.freq + b.freq, left := a.idx, right := b.idx }

/-- The merge loop of R122, `while |Q| > 1`: pop a, pop b, append NODE[n], put n into the queue. The first
argument bounds the merges; each takes one from |Q|, so |Q| of them are enough (R126). -/
def mergeLoop : Nat → List Node → List Queued → List Node
  | fuel + 1, nodes, a :: b :: q =>
    let n := mergedNode a b
    mergeLoop fuel (nodes ++ [n]) (enqueue (queuedOf n nodes.length) q)
  | _, nodes, _ => nodes

/-- NODE as BUILD makes it from FREQ (R122, R129). -/
def buildTree (freq : Cells Count) : List Node :=
  let leaves := leafNodes freq
  mergeLoop leaves.length leaves (queueOf leaves 0)

/-- ROOT for a table of n nodes (R126, R127). -/
def rootOf (n : Nat) : NodeIdx := if n = 0 then Config.noNode else BitVec.ofNat 9 (n - 1)

/-- The commit of R122: NODE, NNODES and ROOT written, CODE and REV emptied, the stage flags set. -/
def State.commitBuild (s : State) : State :=
  { s.emptyCodes with
    node := buildTree s.freq
    nnodes := BitVec.ofNat 9 (buildTree s.freq).length
    root := rootOf (buildTree s.freq).length
    status := s.status.afterBuild }

/-- BUILD, R122. -/
def execBuild (s : State) : Result :=
  s.finish <|
    match needStage s.status.ftValid .build with
    | .error r => .error r
    | .ok () => .ok s.commitBuild

end Sys2Proof.Machine
end

