-- ==== Sys2Proof/Machine/Gencode.lean ====
section
/-! DEFINITION. GENCODE, the CodeTableGenerator (42_gencode.md R135 to R144). -/

namespace Sys2Proof.Machine

/-- `walk(i, p)` of R137: the leaves below node i with their paths, left subtree first (R139). The fuel
bounds the depth; none where it runs out or an entry does not exist, which no tree does (R141). -/
def walk (nodeAt : Nat → Option Node) : Nat → NodeIdx → Bits → Option (List RevEntry)
  | 0, _, _ => none
  | fuel + 1, i, p =>
    match nodeAt i.toNat with
    | none => none
    | some n =>
      if n.leaf then some [{ sym := n.sym, bits := p }]
      else
        match walk nodeAt fuel n.left (p ++ [false]), walk nodeAt fuel n.right (p ++ [true]) with
        | some l, some r => some (l ++ r)
        | _, _ => none

/-- The (symbol, code) pairs that R137 assigns, in the order of assignment: none for the empty tree
(R142), the one-bit code "0" for a root that is a leaf (R140), else the walk from the root. -/
def codeList (nodeAt : Nat → Option Node) (nnodes : Nat) (root : NodeIdx) :
    Option (List RevEntry) :=
  if root = Config.noNode then some []
  else
    match nodeAt root.toNat with
    | none => none
    | some n =>
      if n.leaf then some [{ sym := n.sym, bits := [false] }]
      else walk nodeAt nnodes root []

/-- The CODE half of `assign`, R138, over all assignments from the empty table. -/
def codeTable (l : List RevEntry) : Cells Bits :=
  l.foldl (fun c e => cellPut c e.sym.toNat e.bits) []

/-- The result of R137: CODE, REV and CT_VALID. -/
def State.commitGencode (s : State) (l : List RevEntry) : State :=
  { s with code := codeTable l, rev := l, status := s.status.afterGencode }

/-- GENCODE, R137. -/
def execGencode (s : State) : Result :=
  match needStage s.status.treeValid .gencode with
  | .error r => s.finish (.error r)
  | .ok () =>
    match codeList s.nodeAt s.nnodes.toNat s.root with
    | none => .fault .treeBroken
    | some l => s.finish (.ok (s.commitGencode l))

end Sys2Proof.Machine
end

