-- ==== Sys2Proof/Machine/Artifact.lean ====
section
/-! DEFINITION. The artifact format (30_encoding.md R94 to R98) and the two steps of the BitPacker that
make it (43_pack.md R154, R155). -/

namespace Sys2Proof.Machine

/-- extra = 8 − (L mod 8), from 1 to 8 (R154, R95). -/
def paddingCount (payloadBits : Nat) : Nat := 8 - payloadBits % 8

/-- Step 2, Pad, R154: final = bits8(extra) ++ p ++ zeros(extra). -/
def frame (p : Bits) : Bits :=
  bits8 (BitVec.ofNat 8 (paddingCount p.length)) ++ p ++ zeros (paddingCount p.length)

/-- Step 3, Serialize, R155: byte j is byte(final[8j .. 8j+8)). -/
def serialize (final : Bits) : List Byte :=
  (List.range (final.length / 8)).map fun j => byteOfBits ((final.drop (8 * j)).take 8)

/-- The artifact of a payload (R94). -/
def artifact (p : Bits) : List Byte := serialize (frame p)

end Sys2Proof.Machine
end

