-- ==== Sys2Proof/Machine/Pack.lean ====
section
/-! DEFINITION. PACK, the BitPacker (43_pack.md R150 to R162). -/

namespace Sys2Proof.Machine

/-- Step 1, Encode, R153: the codes of the symbols in input order; NOCODE(i) for the least i whose symbol
has no code. The first number is the position of the text's head. -/
def encodeText (code : Cells Bits) : Nat → List Symbol → Except Raised Bits
  | _, [] => .ok []
  | i, t :: ts =>
    match codeAt code t with
    | none => .error { cause := .noCode, info := BitVec.ofNat 32 i }
    | some b =>
      match encodeText code (i + 1) ts with
      | .error r => .error r
      | .ok p => .ok (b ++ p)

/-- The commit of R152 and R157: DSTCAP(0) when the artifact is longer than DCAP, else its bytes at DST
and the result registers. -/
def State.commitPack (s : State) (p : Bits) : Except Raised State :=
  if s.dcap.toNat < (artifact p).length then .error { cause := .dstCap, info := 0 }
  else
    .ok ((s.writeBytes s.dst.toNat (artifact p)).setResult
      (artifact p).length p.length (paddingCount p.length))

/-- PACK, R152, its tests in the order of R158. -/
def execPack (s : State) : Result :=
  s.finish <|
    match needStage s.status.ctValid .pack with
    | .error r => .error r
    | .ok () =>
      match s.checkRegions with
      | .error r => .error r
      | .ok () =>
        match encodeText s.code 0 s.sourceBytes with
        | .error r => .error r
        | .ok p => s.commitPack p

end Sys2Proof.Machine
end

