-- ==== Sys2Proof/Machine/System.lean ====
section
/-! DEFINITION. The system commands CLEAR and FACK (45_control.md R197, R198, R206). -/

namespace Sys2Proof.Machine

/-- CLEAR, R197: the fault, the stage flags, all tables and the result registers are cleared; SRC, SLEN,
DST, DCAP, TSEL and MEM stay. -/
def execClear (s : State) : Result :=
  .next (({ s.acknowledge with status := Status.reset }).emptyFreq.emptyTree.emptyCodes.setResult 0 0 0)

/-- FACK, R198: FAULT, ERR and ERRINFO are cleared; nothing else. -/
def execFack (s : State) : Result := .next s.acknowledge

end Sys2Proof.Machine
end

