-- ==== Sys2Proof/Machine/Unpack.lean ====
section
/-! DEFINITION. UNPACK, the BitUnpacker and symbol Decoder (44_unpack.md R170 to R184). -/

namespace Sys2Proof.Machine

/-- Step 1, bitstream reconstruction, R173. -/
def bitsOfBytes (bs : List Byte) : Bits := bs.flatMap bits8

/-- What steps 2 and 3 recover from an artifact: the padding count and the payload. -/
structure Unframed where
  extra : Nat
  payload : Bits
deriving DecidableEq, Repr

/-- Steps 2 and 3, R174 and R176: FORMAT(0) without a header byte, FORMAT(extra) when fewer than extra bits
follow the header, else the bits between header and padding, whatever their values (R175). -/
def unframe (artifact : List Byte) : Except Raised Unframed :=
  if artifact.length = 0 then .error { cause := .format, info := 0 }
  else
    let bits := bitsOfBytes artifact
    let extra := (byteOfBits (bits.take 8)).toNat
    let rest := bits.drop 8
    if rest.length < extra then .error { cause := .format, info := BitVec.ofNat 32 extra }
    else .ok { extra := extra, payload := rest.take (rest.length - extra) }

/-- `some e has REV[e].bits = cand`, R178: equality with the whole bit string of an entry. -/
def revLookup (rev : List RevEntry) (cand : Bits) : Option Symbol :=
  (rev.find? fun e => e.bits = cand).map (·.sym)

/-- Step 4, symbol recovery, R178 and R179, from bit k of the payload on: `start` is where the candidate
`cand` begins. UNTERMINATED(start) when bits are left in it at the end. -/
def decodeBits (rev : List RevEntry) : (k start : Nat) → (cand : Bits) → Bits →
    Except Raised (List Symbol)
  | _, start, cand, [] =>
    if cand = [] then .ok []
    else .error { cause := .unterminated, info := BitVec.ofNat 32 start }
  | k, start, cand, b :: bs =>
    match revLookup rev (cand ++ [b]) with
    | none => decodeBits rev (k + 1) start (cand ++ [b]) bs
    | some sym =>
      match decodeBits rev (k + 1) (k + 1) [] bs with
      | .error r => .error r
      | .ok out => .ok (sym :: out)

/-- The commit of R172 and R177: DSTCAP(0) when there are more symbols than DCAP, else the symbols at
DST and the result registers. -/
def State.commitUnpack (s : State) (u : Unframed) (out : List Symbol) : Except Raised State :=
  if s.dcap.toNat < out.length then .error { cause := .dstCap, info := 0 }
  else
    .ok ((s.writeBytes s.dst.toNat out).setResult out.length u.payload.length u.extra)

/-- UNPACK, R172, its tests in the order of R181. -/
def execUnpack (s : State) : Result :=
  s.finish <|
    match needStage s.status.ctValid .unpack with
    | .error r => .error r
    | .ok () =>
      match s.checkRegions with
      | .error r => .error r
      | .ok () =>
        match unframe s.sourceBytes with
        | .error r => .error r
        | .ok u =>
          match decodeBits s.revEntries 0 0 [] u.payload with
          | .error r => .error r
          | .ok out => s.commitUnpack u out

end Sys2Proof.Machine
end

