-- ==== Sys2Proof/Machine/HostPort.lean ====
section
/-! DEFINITION. The host port: the transaction record (30_encoding.md R80), register reads and writes
(R81, R82, 10_state.md R21 to R32, R46), the table window (R31, R32, R39) and host access to MEM
(20_memory.md R65). -/

namespace Sys2Proof.Machine

/-! ### Format HT (R80) -/

/-- The record (kind, addr, data) of a transaction; data is 0 where it is ignored on input. -/
def Transaction.encode : Transaction → BitVec 2 × Word × Word
  | .rd r => (0, r, 0)
  | .wr r v => (1, r, v)
  | .mr a => (2, a, 0)
  | .mw a v => (3, a, v)

/-- The transaction a record stands for; every kind is one of the four. -/
def Transaction.decode (kind : BitVec 2) (addr data : Word) : Transaction :=
  match kind.toNat with
  | 0 => .rd addr
  | 1 => .wr addr data
  | 2 => .mr addr
  | _ => .mw addr data

/-! ### Register numbers (R21) -/

/-- The number of a mapped register. -/
def Reg.number : Reg → Word
  | .cmd => 0
  | .status => 1
  | .err => 2
  | .errInfo => 3
  | .src => 4
  | .slen => 5
  | .dst => 6
  | .dcap => 7
  | .rlen => 8
  | .plen => 9
  | .extra => 10
  | .ndist => 11
  | .nnodes => 12
  | .root => 13
  | .tsel => 14
  | .td k => BitVec.ofNat 32 (16 + k.val)

/-- The register a number maps to; none for 15, 25 to 31 and every number above 31 (R46, R80). -/
def regOfNumber (r : Word) : Option Reg :=
  match r.toNat with
  | 0 => some .cmd
  | 1 => some .status
  | 2 => some .err
  | 3 => some .errInfo
  | 4 => some .src
  | 5 => some .slen
  | 6 => some .dst
  | 7 => some .dcap
  | 8 => some .rlen
  | 9 => some .plen
  | 10 => some .extra
  | 11 => some .ndist
  | 12 => some .nnodes
  | 13 => some .root
  | 14 => some .tsel
  | n => if h : 16 ≤ n ∧ n < 25 then some (.td ⟨n - 16, by omega⟩) else none

/-! ### The table window (R31, R32, R39) -/

/-- TSEL.INDEX, bits 8:0. -/
def State.tselIndex (s : State) : Nat := (s.tsel.extractLsb' 0 9).toNat

/-- TSEL.TABLE, bits 10:9. -/
def State.tselTable (s : State) : BitVec 2 := s.tsel.extractLsb' 9 2

/-- Word j (0 to 7) of a code shown left-aligned and MSB-first, R39: bit k of the code is bit
31 − (k mod 32) of word k div 32, and the bits below the code are 0. -/
def codeWord (p : Bits) (j : Nat) : Word :=
  BitVec.ofNat 32 (natOfBits ((List.range 32).map fun m => p.getD (32 * j + m) false))

/-- FREQ in the window: TD0 is FREQ[i] when i ≤ 255. -/
def State.freqView (s : State) (i : Nat) (k : Fin 9) : Word :=
  if i ≤ 255 ∧ k.val = 0 then freqAt s.freq (BitVec.ofNat 8 i) else 0

/-- NODE in the window when i < NNODES: TD0 has bit 31, leaf in bit 30, sym in bits 7:0. TD1 is freq, TD2
has left in bits 8:0 and right in bits 24:16. -/
def State.nodeView (s : State) (i : Nat) (k : Fin 9) : Word :=
  match s.nodeAt i with
  | none => 0
  | some n =>
    match k.val with
    | 0 => 0x80000000 ||| (if n.leaf then 0x40000000 else 0) ||| n.sym.setWidth 32
    | 1 => n.freq
    | 2 => n.left.setWidth 32 ||| (n.right.setWidth 32 <<< 16)
    | _ => 0

/-- The length field of a code, 8 bits (R38, R40). -/
def lenField (p : Bits) : Word := (BitVec.ofNat 8 p.length).setWidth 32

/-- CODE in the window when i ≤ 255 and CODE[i].valid: TD0 has bit 31 and len in bits 7:0, TD1 to TD8 the
code bits. -/
def State.codeView (s : State) (i : Nat) (k : Fin 9) : Word :=
  match if i ≤ 255 then codeAt s.code (BitVec.ofNat 8 i) else none with
  | none => 0
  | some p => if k.val = 0 then 0x80000000 ||| lenField p else codeWord p (k.val - 1)

/-- REV in the window when i < NDIST and CT_VALID: TD0 has bit 31, sym in bits 23:16 and len in bits 7:0,
TD1 to TD8 the code bits. -/
def State.revView (s : State) (i : Nat) (k : Fin 9) : Word :=
  match if s.status.ctValid then s.revEntries[i]? else none with
  | none => 0
  | some e =>
    if k.val = 0 then 0x80000000 ||| (e.sym.setWidth 32 <<< 16) ||| lenField e.bits
    else codeWord e.bits (k.val - 1)

/-- TD0 to TD8, R32: computed from TSEL and the tables at the time of the read. -/
def State.window (s : State) (k : Fin 9) : Word :=
  match s.tselTable.toNat with
  | 0 => s.freqView s.tselIndex k
  | 1 => s.nodeView s.tselIndex k
  | 2 => s.codeView s.tselIndex k
  | _ => s.revView s.tselIndex k

/-! ### Register reads and writes (R81, R82) -/

/-- The value of a mapped register; reserved bits read 0 (R46). -/
def State.regValue (s : State) : Reg → Word
  | .cmd => 0
  | .status => s.status.word
  | .err => s.err.setWidth 32
  | .errInfo => s.errInfo
  | .src => s.src
  | .slen => s.slen
  | .dst => s.dst
  | .dcap => s.dcap
  | .rlen => s.rlen
  | .plen => s.plen
  | .extra => s.extra.setWidth 32
  | .ndist => s.ndist.setWidth 32
  | .nnodes => s.nnodes.setWidth 32
  | .root => s.root.setWidth 32
  | .tsel => s.tsel.setWidth 32
  | .td k => s.window k

/-- RD r returns this value; an unmapped register reads 0 (R46, R81). -/
def State.regRead (s : State) (r : Word) : Word :=
  match regOfNumber r with
  | some reg => s.regValue reg
  | none => 0

/-- WR r, v for every register but CMD, R82: SRC, SLEN, DST and DCAP store v, TSEL stores v[10:0], every
other write is ignored (R46). -/
def State.regWrite (s : State) (r v : Word) : State :=
  match regOfNumber r with
  | some .src => { s with src := v }
  | some .slen => { s with slen := v }
  | some .dst => { s with dst := v }
  | some .dcap => { s with dcap := v }
  | some .tsel => { s with tsel := v.setWidth 11 }
  | _ => s

/-! ### Host access to MEM (R65) -/

/-- MR a: the byte zero-extended when a < MEM_SIZE, 0 otherwise. -/
def State.hostMemRead (s : State) (a : Word) : Word :=
  if a.toNat < s.params.memSize then (s.readByte a.toNat).setWidth 32 else 0

/-- MW a, v: byte a becomes v[7:0] when a < MEM_SIZE; otherwise nothing. -/
def State.hostMemWrite (s : State) (a v : Word) : State :=
  if a.toNat < s.params.memSize then s.writeByte a.toNat (v.setWidth 8) else s

/-- RD and MR return a value and change nothing else (R47, R63). -/
def State.returning (s : State) (v : Word) : State := { s with reply := some v }

/-- Is this the register number of CMD (R22)? -/
def isCommandRegister (r : Word) : Bool := regOfNumber r = some .cmd

end Sys2Proof.Machine
end

