-- ==== Sys2Proof/Machine/Step.lean ====
section
/-! DEFINITION. The step of the machine (45_control.md R190): one host event, complete when the step
ends. -/

namespace Sys2Proof.Machine

/-- `command(w)` of R192. -/
def command (w : Word) (s : State) : Host.Outcome State Fault Refusal :=
  match takeCommand s.status.fault w with
  | .run i => exec i s
  | .dropped => .next s
  | .illegal => .next (s.illegalCommand w)

/-- `step(tx)` of R190. -/
def transact (t : Transaction) (s : State) : Host.Outcome State Fault Refusal :=
  match t with
  | .rd r => .next (s.returning (s.regRead r))
  | .wr r v => if isCommandRegister r then command v s else .next (s.regWrite r v)
  | .mr a => .next (s.returning (s.hostMemRead a))
  | .mw a v => .next (s.hostMemWrite a v)

/-- One step: take the next event the host sends, a transaction (R190) or reset (R245). With none pending
the engine does nothing (R11). -/
def step (s : State) : Host.Outcome State Fault Refusal :=
  match s.pending with
  | [] => .next s
  | .reset :: rest => .next (s.takeEvent rest).resetEvent
  | .tx t :: rest => transact t (s.takeEvent rest)

/-- The state in which the next event is a WR of the command word `w` to CMD: a command arrives so and in
no other way (R28, R84), in front of whatever else is pending. -/
def State.withFetchWord (s : State) (nbits w : Nat) : State :=
  { s with pending := .tx (.wr Reg.cmd.number (BitVec.ofNat 32 (w % 2 ^ nbits))) :: s.pending }

end Sys2Proof.Machine
end

