-- ==== Sys2Proof/Machine/Script.lean ====
section
/-! DEFINITION. Host scripts: the line syntax of 30_encoding.md R101 and the pseudo-commands of R102,
45_control.md R199 and R200. -/

namespace Sys2Proof.Machine

/-- One line of a host script (R101, R102). -/
inductive ScriptLine
  /-- `wr NAME, v` -/
  | wr (reg : Reg) (v : Word)
  /-- `rd NAME` -/
  | rd (reg : Reg)
  /-- `mw a, v` -/
  | mw (a v : Word)
  /-- `mw a, "text"`: one MW per character, each character's byte value. -/
  | mwText (a : Word) (text : List Char)
  /-- `mw a, b0 b1 b2 …`: one MW per listed byte. -/
  | mwBytes (a : Word) (bytes : List Byte)
  /-- `mr a` -/
  | mr (a : Word)
  /-- `cmd MNEMONIC` -/
  | cmd (i : Instr)
  /-- `reset`, the reset event. -/
  | reset
  /-- `compress` (R199). -/
  | compress
  /-- `decompress` (R200). -/
  | decompress
deriving DecidableEq, Repr

/-- `wr CMD, word` of a command (R101). -/
def commandEvent (i : Instr) : HostEvent := .tx (.wr Reg.cmd.number (encode i))

/-- MWs of values at ascending addresses (R101). -/
def writesFrom : Word → List Word → List HostEvent
  | _, [] => []
  | a, v :: vs => .tx (.mw a v) :: writesFrom (a + 1) vs

/-- `compress` = ANALYZE, BUILD, GENCODE, PACK (R199). -/
def compressCommands : List Instr := [.analyze, .build, .gencode, .pack]

/-- `decompress` = UNPACK (R200). -/
def decompressCommands : List Instr := [.unpack]

/-- The events a line stands for (R101, R102). -/
def ScriptLine.events : ScriptLine → List HostEvent
  | .wr reg v => [.tx (.wr reg.number v)]
  | .rd reg => [.tx (.rd reg.number)]
  | .mw a v => [.tx (.mw a v)]
  | .mwText a text => writesFrom a (text.map fun c => BitVec.ofNat 32 c.toNat)
  | .mwBytes a bytes => writesFrom a (bytes.map (BitVec.setWidth 32))
  | .mr a => [.tx (.mr a)]
  | .cmd i => [commandEvent i]
  | .reset => [.reset]
  | .compress => compressCommands.map commandEvent
  | .decompress => decompressCommands.map commandEvent

/-- The events of a script, line by line. -/
def scriptEvents (lines : List ScriptLine) : List HostEvent := lines.flatMap ScriptLine.events

/-- The host sends a script, after whatever it has still to send. -/
def State.sends (s : State) (lines : List ScriptLine) : State :=
  { s with pending := s.pending ++ scriptEvents lines }

end Sys2Proof.Machine
end

