-- ==== Sys2Proof/Safety.lean ====
section
/-! DEFINITION. The terms claims use: the invariant of every run, and the spec's whole-machine facts on
trees and codes (10_state.md R25, R26, R36, R37, R41 to R44, 41_build.md R121 to R126, 42_gencode.md
R136). -/

namespace Sys2Proof.Machine

/-! ### Totals over FREQ -/

/-- The number of keys of a FrequencyTable: the symbols with FREQ[s] > 0 (R34). -/
def keyCount (freq : Cells Count) : Nat :=
  (allSymbols.filter fun s => 0 < (freqAt freq s).toNat).length

/-- Σ FREQ[s] over all symbols, as a natural number. -/
def totalCount (freq : Cells Count) : Nat := (allSymbols.map fun s => (freqAt freq s).toNat).sum

/-! ### The invariant -/

/-- What the flags, the fault registers and MEM satisfy in every run. -/
structure ControlInv (s : State) : Prop where
  /-- 1 ≤ MEM_SIZE ≤ 2^28 (R5). -/
  params : WellFormed.params s.params = true
  /-- MEM is in canonical form and inside MEM_SIZE (R60). -/
  mem : Memory.wf s.params.memSize s.mem
  /-- TREE_VALID implies FT_VALID (R25). -/
  treeStage : s.status.treeValid = true → s.status.ftValid = true
  /-- CT_VALID implies TREE_VALID (R25). -/
  codeStage : s.status.ctValid = true → s.status.treeValid = true
  /-- ERR and ERRINFO are 0 when FAULT is clear (R26). -/
  noFault : s.status.fault = false → s.err = 0 ∧ s.errInfo = 0
  /-- ERR holds one of the codes 1 to 7 when FAULT is set (R216). -/
  faultCode : s.status.fault = true → 1 ≤ s.err.toNat ∧ s.err.toNat ≤ 7
  /-- FT_VALID clear means FREQ empty and NDIST = 0 (R44). -/
  freqEmpty : s.status.ftValid = false → s.freq = [] ∧ s.ndist = 0
  /-- TREE_VALID clear means NNODES = 0 and ROOT = NONE (R44). -/
  treeEmpty : s.status.treeValid = false → s.node = [] ∧ s.nnodes = 0 ∧ s.root = Config.noNode
  /-- CT_VALID clear means CODE and REV empty (R44). -/
  codesEmpty : s.status.ctValid = false → s.code = [] ∧ s.rev = []

/-- What the tables satisfy in every run: FREQ is the table of a text that fits in MEM, and the later
tables are what BUILD and GENCODE make of it (R129, R144). -/
structure TableInv (s : State) : Prop where
  /-- FREQ is in canonical form: rising symbols below NSYM, no count 0 (R33, R34). -/
  freqForm : Rising s.freq ∧ ∀ c ∈ s.freq, c.1 < Config.nsym ∧ c.2 ≠ 0
  /-- The counts add up to at most MEM_SIZE (R36). -/
  freqTotal : totalCount s.freq ≤ s.params.memSize
  /-- NDIST is the number of keys (R30). -/
  ndist : s.ndist.toNat = keyCount s.freq
  /-- TREE_VALID: NODE, NNODES and ROOT are the tree of FREQ (R122, R129). -/
  tree : s.status.treeValid = true →
    s.node = buildTree s.freq ∧ s.nnodes.toNat = s.node.length ∧ s.root = rootOf s.node.length
  /-- CT_VALID: CODE and REV are the code of that tree (R137, R144). -/
  codes : s.status.ctValid = true →
    codeList s.nodeAt s.nnodes.toNat s.root = some s.rev ∧ s.code = codeTable s.rev

/-- The invariant of every run. -/
structure Inv (s : State) : Prop where
  control : ControlInv s
  tables : TableInv s

/-- The state before a command with FAULT set, ERR and ERRINFO written and nothing else changed: what
R193 and R221 say a fault leaves. -/
def State.faulted (s : State) (code : BitVec 4) (info : Word) : State :=
  { s with status := { s.status with fault := true }, err := code, errInfo := info }

/-- The operand regions pass the range check of R66. -/
structure RegionsOk (s : State) : Prop where
  src : s.src.toNat + s.slen.toNat ≤ s.params.memSize
  dst : s.dst.toNat + s.dcap.toNat ≤ s.params.memSize
  apart : s.slen = 0 ∨ s.dcap = 0 ∨ s.src.toNat + s.slen.toNat ≤ s.dst.toNat ∨
    s.dst.toNat + s.dcap.toNat ≤ s.src.toNat

/-! ### The tree, R37 -/

/-- The child indices of the internal nodes of a table, in index order, left before right. -/
def childIndices (nodes : List Node) : List Nat :=
  nodes.flatMap fun n => if n.leaf then [] else [n.left.toNat, n.right.toNat]

/-- The tree invariants of R37, (a) to (f). -/
structure TreeShape (s : State) : Prop where
  /-- (a) -/
  empty : s.ndist = 0 → s.nnodes = 0 ∧ s.root = Config.noNode
  /-- (b) NNODES and ROOT. -/
  size : s.ndist ≠ 0 →
    s.nnodes.toNat = 2 * s.ndist.toNat - 1 ∧ s.root.toNat = 2 * s.ndist.toNat - 2
  /-- (b) NODE[0] to NODE[NNODES − 1] exist; the first NDIST are the leaves, the others internal. -/
  leaves : ∀ i, i < s.nnodes.toNat →
    ∃ n, s.nodeAt i = some n ∧ (n.leaf = true ↔ i < s.ndist.toNat)
  /-- (b) The leaves are in ascending order of symbol. -/
  ascending : ∀ i j m n, i < j → j < s.ndist.toNat →
    s.nodeAt i = some m → s.nodeAt j = some n → m.sym.toNat < n.sym.toNat
  /-- (c) The children of an internal node have smaller indices. -/
  smaller : ∀ i n, s.nodeAt i = some n → n.leaf = false → n.left.toNat < i ∧ n.right.toNat < i
  /-- (d) Every node but the root is the child of exactly one internal node, once. -/
  owned : (childIndices s.node).Nodup ∧ ∀ j, j ∈ childIndices s.node ↔ j + 1 < s.nnodes.toNat
  /-- (e) The frequency of an internal node is the sum of its children's, with no overflow. -/
  sums : ∀ i n, s.nodeAt i = some n → n.leaf = false →
    ∃ l r, s.nodeAt n.left.toNat = some l ∧ s.nodeAt n.right.toNat = some r ∧
      n.freq.toNat = l.freq.toNat + r.freq.toNat
  /-- (f) The frequency of the root is the sum of all counts. -/
  total : ∀ n, s.nodeAt s.root.toNat = some n → n.freq.toNat = totalCount s.freq

/-! ### The merge loop over an unordered queue, R121 to R126 -/

/-- The frequency of NODE[i]. -/
def nodeFreq (nodes : List Node) (i : Nat) : Count :=
  match nodes[i]? with
  | some n => n.freq
  | none => 0

/-- Node i comes before node j (R121). -/
def comesBefore (nodes : List Node) (i j : Nat) : Prop :=
  (nodeFreq nodes i).toNat < (nodeFreq nodes j).toNat ∨
    (nodeFreq nodes i = nodeFreq nodes j ∧ i < j)

/-- i is the least index of Q: what popmin returns (R123). -/
def IsLeast (nodes : List Node) (Q : Finset Nat) (i : Nat) : Prop :=
  i ∈ Q ∧ ∀ j ∈ Q, j ≠ i → comesBefore nodes i j

/-- `MergeRun nodes Q out`: merging from the table `nodes` with the set Q in the queue ends in `out`. -/
inductive MergeRun : List Node → Finset Nat → List Node → Prop
  /-- At most one index is left (R126). -/
  | done {nodes : List Node} {Q : Finset Nat} (h : Q.card ≤ 1) : MergeRun nodes Q nodes
  /-- a and b are popped, the new node takes the next index and enters the queue (R125). -/
  | merge {nodes out : List Node} {Q : Finset Nat} {a b : Nat}
      (ha : IsLeast nodes Q a) (hb : IsLeast nodes (Q.erase a) b)
      (next : MergeRun
        (nodes ++ [{ leaf := false, sym := 0, freq := nodeFreq nodes a + nodeFreq nodes b,
                     left := BitVec.ofNat 9 a, right := BitVec.ofNat 9 b }])
        (insert nodes.length ((Q.erase a).erase b)) out) : MergeRun nodes Q out

/-! ### Paths and codes, R136, R41, R42 -/

/-- `PathTo nodeAt root i p`: p is the path of node i, R136. -/
inductive PathTo (nodeAt : Nat → Option Node) (root : NodeIdx) : NodeIdx → Bits → Prop
  | root : PathTo nodeAt root root []
  | left {i : NodeIdx} {p : Bits} {n : Node} (h : PathTo nodeAt root i p)
      (hn : nodeAt i.toNat = some n) (inner : n.leaf = false) :
      PathTo nodeAt root n.left (p ++ [false])
  | right {i : NodeIdx} {p : Bits} {n : Node} (h : PathTo nodeAt root i p)
      (hn : nodeAt i.toNat = some n) (inner : n.leaf = false) :
      PathTo nodeAt root n.right (p ++ [true])

/-- p comes before q, comparing bit by bit from the first bit, 0 before 1 (R139): they agree up to a bit
that is 0 in p and 1 in q. -/
def lexBefore (p q : Bits) : Prop := ∃ c u v, p = c ++ false :: u ∧ q = c ++ true :: v

/-- CODE and REV are inverse to each other (R41) and the code is prefix-free, with no empty code (R42). -/
structure CodesOk (s : State) : Prop where
  /-- CODE[s] = p exactly when (s, p) is an entry of REV. -/
  inverse : ∀ sym p, codeAt s.code sym = some p ↔ { sym := sym, bits := p } ∈ s.revEntries
  /-- No symbol and no bit string has two entries. -/
  once : s.revEntries.Pairwise fun e f => e.sym ≠ f.sym ∧ e.bits ≠ f.bits
  /-- No code is the beginning of the code of another symbol. -/
  prefixFree : ∀ e ∈ s.revEntries, ∀ f ∈ s.revEntries, e.sym ≠ f.sym → ¬ e.bits <+: f.bits
  /-- No code is empty. -/
  nonEmpty : ∀ e ∈ s.revEntries, e.bits ≠ []

/-! ### Texts under a code table -/

/-- The payload of a text: the codes of its symbols in input order (R97); none when a symbol has no
code. -/
def payloadOf (code : Cells Bits) (text : List Symbol) : Option Bits :=
  (text.mapM (codeAt code)).map List.flatten

end Sys2Proof.Machine
end

