-- ==== Sys2Proof/Certificates/Slice0/Obligations.lean ====
section
/-! DEFINITION. The statements for the provers. Each docstring names the rules of spec/ it formalises. -/

set_option autoImplicit false

open Sys2Proof Sys2Proof.Machine

/-! ### Encodings -/

/-- The words of the opcode map (R86) and illegal words of each kind (R90), written out. -/
def Obligations.OpcodeMapWordsDecode : Prop :=
  decode 0x00000001#32 = .command .clear ∧ decode 0x00000002#32 = .command .analyze ∧
  decode 0x00000003#32 = .command .build ∧ decode 0x00000004#32 = .command .gencode ∧
  decode 0x00000005#32 = .command .pack ∧ decode 0x00000006#32 = .command .unpack ∧
  decode 0x00000007#32 = .command .fack ∧
  decode 0x00000000#32 = .illegal .opcodeUnassigned ∧
  decode 0x00000008#32 = .illegal .opcodeUnassigned ∧
  decode 0x000000FF#32 = .illegal .opcodeUnassigned ∧
  decode 0x00000105#32 = .illegal .reservedNotZero ∧
  decode 0x80000001#32 = .illegal .reservedNotZero ∧
  decode 0xFFFFFFFF#32 = .illegal .reservedNotZero

/-- R87: every word is one of the seven commands or illegal, by its fields, and a decoder made from the
opcode table says the same. -/
def Obligations.DecoderIsExactAndAgreesWithTheTable : Prop :=
  (∀ w : Word, w.extractLsb' 8 24 ≠ 0 → ∃ why, decode w = .illegal why) ∧
  (∀ w : Word, w.extractLsb' 8 24 = 0 →
    ((w.extractLsb' 0 8).toNat = 0 ∨ 8 ≤ (w.extractLsb' 0 8).toNat) → ∃ why, decode w = .illegal why) ∧
  (∀ (w : Word) (i : Instr), decode w = .command i ↔
    w = match i with
      | .clear => 0x00000001#32
      | .analyze => 0x00000002#32
      | .build => 0x00000003#32
      | .gencode => 0x00000004#32
      | .pack => 0x00000005#32
      | .unpack => 0x00000006#32
      | .fack => 0x00000007#32) ∧
  (∀ r ∈ opcodeTable, ∀ w : Word, decode w = .command r.command ↔ w &&& r.mask = r.pattern) ∧
  (∀ w : Word, opcodeTable.Pairwise fun r q => ¬ (w &&& r.mask = r.pattern ∧ w &&& q.mask = q.pattern)) ∧
  (∀ w : Word, (∀ r ∈ opcodeTable, w &&& r.mask ≠ r.pattern) → ∃ why, decode w = .illegal why)

/-- Decode and encode agree on every command (R84, R85: no bit of a word is an operand). -/
def Obligations.DecodeOfEncodeIsTheCommand : Prop :=
  ∀ i : Instr, WellFormed.instr i = true → decode (encode i) = .command i

/-- R80: the record (kind, addr, data) of each transaction, and back. -/
def Obligations.TransactionRecordRoundTrip : Prop :=
  (∀ r v : Word, Transaction.encode (.wr r v) = (1, r, v) ∧ Transaction.encode (.mw r v) = (3, r, v) ∧
    (Transaction.encode (.rd r)).1 = 0 ∧ (Transaction.encode (.rd r)).2.1 = r ∧
    (Transaction.encode (.mr r)).1 = 2 ∧ (Transaction.encode (.mr r)).2.1 = r) ∧
  (∀ a d : Word, Transaction.decode 0 a d = .rd a ∧ Transaction.decode 1 a d = .wr a d ∧
    Transaction.decode 2 a d = .mr a ∧ Transaction.decode 3 a d = .mw a d) ∧
  ∀ t : Transaction, Transaction.decode t.encode.1 t.encode.2.1 t.encode.2.2 = t

/-- R7: bits8 and byte are inverse, position k of bits8(v) holds bit 7 − k of v. -/
def Obligations.ByteAndBitStringAreInverse : Prop :=
  (∀ v : Byte, (bits8 v).length = 8 ∧ ∀ k, k < 8 → (bits8 v)[k]? = some (v.getLsbD (7 - k))) ∧
  (∀ v : Byte, byteOfBits (bits8 v) = v) ∧
  ∀ b : Bits, b.length = 8 → bits8 (byteOfBits b) = b

/-- R173: bit 8j + k of the reconstructed bit string is bit 7 − k of byte j, and there are 8 bits a byte. -/
def Obligations.BitstreamIsMsbFirst : Prop :=
  ∀ bs : List Byte, (bitsOfBytes bs).length = 8 * bs.length ∧
    ∀ (j k : Nat) (v : Byte), bs[j]? = some v → k < 8 →
      (bitsOfBytes bs)[8 * j + k]? = some (v.getLsbD (7 - k))

/-- R95 to R98: the length of an artifact, its header byte, where each payload bit lies, and the zero
padding up to the end of the last byte. -/
def Obligations.ArtifactLayout : Prop :=
  ∀ p : Bits, (artifact p).length = p.length / 8 + 2 ∧
    (∃ h, (artifact p)[0]? = some h ∧ h.toNat = 8 - p.length % 8) ∧
    (∀ (k : Nat) (b : Bool), p[k]? = some b →
      ∃ v, (artifact p)[1 + k / 8]? = some v ∧ v.getLsbD (7 - k % 8) = b) ∧
    ∀ m, m < 8 - p.length % 8 →
      ∃ v, (artifact p)[(8 + p.length + m) / 8]? = some v ∧
        v.getLsbD (7 - (8 + p.length + m) % 8) = false

/-! ### The step and the host port -/

/-- R190, R192: with FAULT clear, a WR of a command word to CMD runs the command the word decodes to, on
the state with that event taken and no value returned. -/
def Obligations.StepRunsTheDecodedCommand : Prop :=
  (∀ (s : State) (w : Word) (i : Instr) (rest : List HostEvent),
    s.pending = .tx (.wr 0 w) :: rest → s.status.fault = false → decode w = .command i →
    step s = exec i { s with pending := rest, reply := none }) ∧
  ∀ (s : State) (i : Instr), s.status.fault = false →
    step (s.withFetchWord 32 (encode i).toNat) = exec i { s with reply := none }

/-- R191: while FAULT is set a word that is neither CLEAR nor FACK changes nothing, illegal words
included; CLEAR and FACK are executed. -/
def Obligations.WordsAreDroppedWhileFaultIsSet : Prop :=
  ∀ (s : State) (w : Word) (rest : List HostEvent),
    s.pending = .tx (.wr 0 w) :: rest → s.status.fault = true →
    (w ≠ 0x00000001#32 → w ≠ 0x00000007#32 →
      step s = .next { s with pending := rest, reply := none }) ∧
    (w = 0x00000001#32 → step s = exec .clear { s with pending := rest, reply := none }) ∧
    (w = 0x00000007#32 → step s = exec .fack { s with pending := rest, reply := none })

/-- R90, R217: an illegal word faults with ILLEGAL_CMD and ERRINFO = the word when FAULT is clear and is
dropped when it is set; it changes nothing else. -/
def Obligations.IllegalWordFaults : Prop :=
  ∀ (s : State) (w : Word) (rest : List HostEvent), s.pending = .tx (.wr 0 w) :: rest →
    (w.extractLsb' 8 24 ≠ 0 ∨ (w.extractLsb' 0 8).toNat = 0 ∨ 8 ≤ (w.extractLsb' 0 8).toNat) →
    (s.status.fault = false →
      step s = .next (State.faulted { s with pending := rest, reply := none } 1 w)) ∧
    (s.status.fault = true → step s = .next { s with pending := rest, reply := none })

/-- R21, R46: the register numbers that are mapped; no two registers share one. -/
def Obligations.RegisterNumbersAreTheMap : Prop :=
  (∀ g : Reg, regOfNumber g.number = some g) ∧
  (∀ (r : Word) (g : Reg), regOfNumber r = some g → g.number = r) ∧
  ∀ r : Word, regOfNumber r = none ↔ r = 15 ∨ 25 ≤ r.toNat

/-- R81, R21, R46: RD returns the value of the register and changes nothing; unmapped numbers read 0. -/
def Obligations.RegisterReadReturnsTheValue : Prop :=
  ∀ (s : State) (r : Word) (rest : List HostEvent), s.pending = .tx (.rd r) :: rest →
    ∃ v, step s = .next { s with pending := rest, reply := some v } ∧
      (r = 0 → v = 0) ∧ (r = 1 → v = s.status.word) ∧
      (r = 2 → v.toNat = s.err.toNat) ∧ (r = 3 → v = s.errInfo) ∧
      (r = 4 → v = s.src) ∧ (r = 5 → v = s.slen) ∧ (r = 6 → v = s.dst) ∧ (r = 7 → v = s.dcap) ∧
      (r = 8 → v = s.rlen) ∧ (r = 9 → v = s.plen) ∧ (r = 10 → v.toNat = s.extra.toNat) ∧
      (r = 11 → v.toNat = s.ndist.toNat) ∧ (r = 12 → v.toNat = s.nnodes.toNat) ∧
      (r = 13 → v.toNat = s.root.toNat) ∧ (r = 14 → v.toNat = s.tsel.toNat) ∧
      (∀ k : Fin 9, r.toNat = 16 + k.val → v = s.window k) ∧
      (r = 15 → v = 0) ∧ (25 ≤ r.toNat → v = 0)

/-- R82: what a WR to each register does; a WR returns no value. -/
def Obligations.RegisterWriteStoresOrIsIgnored : Prop :=
  ∀ (s : State) (r v : Word) (rest : List HostEvent), s.pending = .tx (.wr r v) :: rest →
    ∃ s', s' = { s with pending := rest, reply := none } ∧
      (r = 4 → step s = .next { s' with src := v }) ∧
      (r = 5 → step s = .next { s' with slen := v }) ∧
      (r = 6 → step s = .next { s' with dst := v }) ∧
      (r = 7 → step s = .next { s' with dcap := v }) ∧
      (r = 14 → step s = .next { s' with tsel := v.extractLsb' 0 11 }) ∧
      (r = 0 → step s = command v s') ∧
      (r ≠ 0 → r ≠ 4 → r ≠ 5 → r ≠ 6 → r ≠ 7 → r ≠ 14 → step s = .next s')

/-- R65: MR returns the byte or 0, MW sets one byte or nothing; neither touches a register or table. -/
def Obligations.HostMemoryAccess : Prop :=
  (∀ (s : State) (a : Word) (rest : List HostEvent), s.pending = .tx (.mr a) :: rest →
    ∃ v, step s = .next { s with pending := rest, reply := some v } ∧
      (a.toNat < s.params.memSize → v.toNat = (s.readByte a.toNat).toNat) ∧
      (s.params.memSize ≤ a.toNat → v = 0)) ∧
  ∀ (s : State) (a v : Word) (rest : List HostEvent), s.pending = .tx (.mw a v) :: rest →
    (a.toNat < s.params.memSize → ∃ mem,
      step s = .next { s with pending := rest, reply := none, mem := mem } ∧
      ∀ b, State.readByte { s with mem := mem } b =
        if b = a.toNat then v.extractLsb' 0 8 else s.readByte b) ∧
    (s.params.memSize ≤ a.toNat → step s = .next { s with pending := rest, reply := none })

/-- R23: where each flag stands in the STATUS word; the other bits read 0. -/
def Obligations.StatusWordBits : Prop :=
  ∀ (f : Status) (k : Nat), f.word.getLsbD k =
    if k = 0 then f.fault else if k = 1 then f.ftValid else if k = 2 then f.treeValid
    else if k = 3 then f.ctValid else false

/-- R32: what TD0 to TD8 show of each table, 0 where the condition fails, and so 0 for every table whose
stage flag is clear. -/
def Obligations.WindowShowsTheSelectedEntry : Prop :=
  ∀ (s : State) (k : Fin 9) (i t : Nat), i < 512 → s.tsel.toNat = 512 * t + i →
    (t = 0 →
      (i ≤ 255 → k.val = 0 → s.window k = freqAt s.freq (BitVec.ofNat 8 i)) ∧
      (255 < i ∨ 0 < k.val → s.window k = 0)) ∧
    (t = 1 →
      (∀ n, s.nodeAt i = some n →
        (k.val = 0 → (s.window k).toNat =
          2 ^ 31 + (if n.leaf then 2 ^ 30 else 0) + n.sym.toNat) ∧
        (k.val = 1 → s.window k = n.freq) ∧
        (k.val = 2 → (s.window k).toNat = n.left.toNat + 2 ^ 16 * n.right.toNat) ∧
        (3 ≤ k.val → s.window k = 0)) ∧
      (s.nnodes.toNat ≤ i → s.window k = 0)) ∧
    (t = 2 →
      (∀ p, i ≤ 255 → codeAt s.code (BitVec.ofNat 8 i) = some p → p.length ≤ 255 →
        (k.val = 0 → (s.window k).toNat = 2 ^ 31 + p.length) ∧
        (1 ≤ k.val → s.window k = codeWord p (k.val - 1))) ∧
      (255 < i ∨ codeAt s.code (BitVec.ofNat 8 i) = none → s.window k = 0)) ∧
    (t = 3 →
      (∀ e, i < s.ndist.toNat → s.status.ctValid = true → s.rev[i]? = some e → e.bits.length ≤ 255 →
        (k.val = 0 → (s.window k).toNat = 2 ^ 31 + 2 ^ 16 * e.sym.toNat + e.bits.length) ∧
        (1 ≤ k.val → s.window k = codeWord e.bits (k.val - 1))) ∧
      (s.ndist.toNat ≤ i ∨ s.status.ctValid = false → s.window k = 0)) ∧
    (Inv s → (t = 0 ∧ s.status.ftValid = false ∨ t = 1 ∧ s.status.treeValid = false ∨
      2 ≤ t ∧ s.status.ctValid = false) → s.window k = 0)

/-- R39: code bit k is bit 31 − (k mod 32) of word k div 32 of the eight code words, and every bit below the
code is 0. -/
def Obligations.CodeWordsAreLeftAligned : Prop :=
  ∀ (p : Bits) (k : Nat), p.length ≤ 255 → k < 256 →
    (codeWord p (k / 32)).getLsbD (31 - k % 32) = (p[k]?).getD false

/-- R102: the events of the two pseudo-commands. -/
def Obligations.PseudoCommandsExpand : Prop :=
  ScriptLine.compress.events =
    [.tx (.wr 0 2), .tx (.wr 0 3), .tx (.wr 0 4), .tx (.wr 0 5)] ∧
  ScriptLine.decompress.events = [.tx (.wr 0 6)]

/-! ### Reset -/

/-- R48: every register reads its reset value, the flags are clear and the tables are empty. Nothing is said
of MEM, which is unspecified. -/
def Obligations.ResetValues : Prop :=
  (∀ r : Word, State.reset.regRead r = if r = 13 then 0x1FF#32 else 0) ∧
  State.reset.status =
    { fault := false, ftValid := false, treeValid := false, ctValid := false } ∧
  (∀ x : Symbol, freqAt State.reset.freq x = 0) ∧ (∀ i : Nat, State.reset.nodeAt i = none) ∧
  (∀ x : Symbol, codeAt State.reset.code x = none) ∧ State.reset.revEntries = []

/-- The reset event (R245, R246) and the idle engine (R11). THE MODEL'S OWN in it: that events come from
`pending`, that MEM_SIZE stays, and the free value of MEM by epoch (notes/assumptions/1.md, 2.md, 3.md). -/
def Obligations.ResetEventAndIdleStep : Prop :=
  (∀ a : Nat, State.reset.readByte a = Config.unwrittenByte 0 a) ∧
  (∀ (s : State) (rest : List HostEvent), s.pending = .reset :: rest →
    step s = .next { State.reset with
      params := s.params, memEpoch := s.memEpoch + 1, pending := rest }) ∧
  (∀ (s t : State) (rest : List HostEvent), s.pending = .reset :: rest → step s = .next t →
    ∀ a, t.readByte a = Config.unwrittenByte (s.memEpoch + 1) a) ∧
  ∀ s : State, s.pending = [] → step s = .next s

/-! ### CLEAR and FACK -/

/-- R197: CLEAR completes in every state and writes exactly these. -/
def Obligations.ClearResult : Prop :=
  ∀ s : State, exec .clear s = .next { s with
    status := { fault := false, ftValid := false, treeValid := false, ctValid := false }
    err := 0, errInfo := 0
    freq := [], ndist := 0
    node := [], nnodes := 0, root := 0x1FF
    code := [], rev := []
    rlen := 0, plen := 0, extra := 0 }

/-- R198: FACK completes in every state and clears FAULT, ERR and ERRINFO only. -/
def Obligations.FackResult : Prop :=
  ∀ s : State, exec .fack s = .next { s with
    status := { s.status with fault := false }
    err := 0
    errInfo := 0 }

/-! ### ANALYZE -/

/-- R111: ANALYZE completes when the source lies in MEM, and then writes the counts, NDIST, the emptied
later tables and the stage flags, nothing else; otherwise RANGE(0). -/
def Obligations.AnalyzeResult : Prop :=
  ∀ s : State, s.params.memSize ≤ 2 ^ 28 →
    (s.src.toNat + s.slen.toNat ≤ s.params.memSize →
      ∃ freq ndist,
        exec .analyze s = .next { s with
          freq := freq
          ndist := ndist
          node := [], nnodes := 0, root := 0x1FF
          code := [], rev := []
          status := { s.status with ftValid := true, treeValid := false, ctValid := false } } ∧
        (∀ x : Symbol,
          (freqAt freq x).toNat = (s.readBytes s.src.toNat s.slen.toNat).count x) ∧
        ndist.toNat = (s.readBytes s.src.toNat s.slen.toNat).toFinset.card) ∧
    (s.params.memSize < s.src.toNat + s.slen.toNat → exec .analyze s = .next (s.faulted 3 0))

/-- R112: the result law of a completed ANALYZE. -/
def Obligations.AnalyzeResultLaw : Prop :=
  ∀ s t : State, s.params.memSize ≤ 2 ^ 28 → s.src.toNat + s.slen.toNat ≤ s.params.memSize →
    exec .analyze s = .next t →
    (∀ x : Symbol, (freqAt t.freq x).toNat = (s.readBytes s.src.toNat s.slen.toNat).count x) ∧
    totalCount t.freq = s.slen.toNat ∧
    t.ndist.toNat = (s.readBytes s.src.toNat s.slen.toNat).toFinset.card ∧
    t.ndist.toNat ≤ min s.slen.toNat 256 ∧
    ∀ s' t' : State, s'.params.memSize ≤ 2 ^ 28 →
      s'.src.toNat + s'.slen.toNat ≤ s'.params.memSize →
      (s'.readBytes s'.src.toNat s'.slen.toNat).Perm (s.readBytes s.src.toNat s.slen.toNat) →
      exec .analyze s' = .next t' → t'.freq = t.freq ∧ t'.ndist = t.ndist

/-! ### BUILD -/

/-- R122 with R121 and R123 to R125: BUILD completes when FT_VALID is set and writes the table that leaves
in ascending order of symbol and merges of the two least indices give, whatever holds the queue; otherwise
SEQ(3). The counts must not overflow, which they do in no run (R36). -/
def Obligations.BuildResult : Prop :=
  ∀ s : State,
    (s.status.ftValid = false → exec .build s = .next (s.faulted 2 3)) ∧
    (s.status.ftValid = true → totalCount s.freq < 2 ^ 32 →
      ∃ node leaves,
        exec .build s = .next { s with
          node := node
          nnodes := BitVec.ofNat 9 node.length
          root := if node.length = 0 then 0x1FF else BitVec.ofNat 9 (node.length - 1)
          code := [], rev := []
          status := { s.status with treeValid := true, ctValid := false } } ∧
        node.length ≤ 511 ∧
        leaves = ((allSymbols.filter fun x => 0 < (freqAt s.freq x).toNat).map fun x =>
          { leaf := true, sym := x, freq := freqAt s.freq x, left := 0x1FF, right := 0x1FF }) ∧
        MergeRun leaves (Finset.range leaves.length) node)

/-- R37 (a) to (f): the shape of the tree in every state of a run that holds one. -/
def Obligations.TreeShapeWhileTreeValid : Prop :=
  ∀ s : State, Inv s → s.status.treeValid = true → TreeShape s

/-- R136, R37 (g): every node of the tree has exactly one path. -/
def Obligations.EveryNodeHasOnePath : Prop :=
  ∀ s : State, Inv s → s.status.treeValid = true → ∀ i : NodeIdx, i.toNat < s.nnodes.toNat →
    ∃ p, PathTo s.nodeAt s.root i p ∧ ∀ q, PathTo s.nodeAt s.root i q → q = p

/-- R127, R128: BUILD of the empty table and of a table with one key. -/
def Obligations.BuildOfEmptyAndSingleTable : Prop :=
  ∀ s : State, s.status.ftValid = true →
    ((∀ x : Symbol, freqAt s.freq x = 0) →
      exec .build s = .next { s with
        node := [], nnodes := 0, root := 0x1FF
        code := [], rev := []
        status := { s.status with treeValid := true, ctValid := false } }) ∧
    ∀ x : Symbol, freqAt s.freq x ≠ 0 → (∀ y : Symbol, y ≠ x → freqAt s.freq y = 0) →
      exec .build s = .next { s with
        node := [{ leaf := true, sym := x, freq := freqAt s.freq x, left := 0x1FF, right := 0x1FF }]
        nnodes := 1, root := 0
        code := [], rev := []
        status := { s.status with treeValid := true, ctValid := false } }

/-- R129: BUILD is a function of FREQ: equal counts give equal NODE, NNODES and ROOT. -/
def Obligations.BuildIsAFunctionOfFreq : Prop :=
  ∀ s s' t t' : State, s.status.ftValid = true → s'.status.ftValid = true →
    (∀ x : Symbol, freqAt s.freq x = freqAt s'.freq x) →
    exec .build s = .next t → exec .build s' = .next t' →
    t.node = t'.node ∧ t.nnodes = t'.nnodes ∧ t.root = t'.root

/-! ### GENCODE -/

/-- R137 with R136, R138 to R140 and R142: GENCODE completes in every state of a run with TREE_VALID set and
writes the code of the tree into CODE and REV, nothing else but CT_VALID; without TREE_VALID, SEQ(4). -/
def Obligations.GencodeResult : Prop :=
  ∀ s : State,
    (s.status.treeValid = false → exec .gencode s = .next (s.faulted 2 4)) ∧
    (Inv s → s.status.treeValid = true →
      ∃ code rev,
        exec .gencode s = .next { s with
          code := code
          rev := rev
          status := { s.status with ctValid := true } } ∧
        (∀ (x : Symbol) (p : Bits), codeAt code x = some p ↔ { sym := x, bits := p } ∈ rev) ∧
        rev.length = s.ndist.toNat ∧
        rev.Pairwise (fun e f => lexBefore e.bits f.bits) ∧
        (s.root = 0x1FF → rev = []) ∧
        (∀ n, s.root ≠ 0x1FF → s.nodeAt s.root.toNat = some n → n.leaf = true →
          rev = [{ sym := n.sym, bits := [false] }]) ∧
        (∀ n, s.root ≠ 0x1FF → s.nodeAt s.root.toNat = some n → n.leaf = false →
          ∀ (x : Symbol) (p : Bits), { sym := x, bits := p } ∈ rev ↔
            ∃ i m, PathTo s.nodeAt s.root i p ∧ s.nodeAt i.toNat = some m ∧ m.leaf = true ∧
              m.sym = x))

/-- R41, R42: whenever CT_VALID is set in a run, CODE and REV are inverse to each other and the code is
prefix-free. -/
def Obligations.CodeTablesInverseAndPrefixFree : Prop :=
  ∀ s : State, Inv s → s.status.ctValid = true → CodesOk s

/-- R143 (a) to (d) and (h): which symbols have a code, how long the codes are, that the code is complete,
and the length of the payload of the analysed text. -/
def Obligations.CodeTableLaws : Prop :=
  ∀ s : State, Inv s → s.status.ctValid = true →
    (∀ x : Symbol, (codeAt s.code x).isSome = true ↔ freqAt s.freq x ≠ 0) ∧
    (2 ≤ s.ndist.toNat →
      (∀ (x : Symbol) (p : Bits), codeAt s.code x = some p →
        1 ≤ p.length ∧ p.length ≤ s.ndist.toNat - 1) ∧
      (s.revEntries.map fun e => (1 / 2 : ℚ) ^ e.bits.length).sum = 1) ∧
    (s.ndist.toNat = 1 → ∀ (x : Symbol) (p : Bits), codeAt s.code x = some p → p = [false]) ∧
    (s.ndist.toNat = 0 → ∀ x : Symbol, codeAt s.code x = none) ∧
    ∀ text : List Symbol, (∀ x : Symbol, text.count x = (freqAt s.freq x).toNat) →
      ∃ p, payloadOf s.code text = some p ∧
        p.length = (allSymbols.map fun x =>
          (freqAt s.freq x).toNat * ((codeAt s.code x).getD []).length).sum

/-- R195: BUILD and GENCODE may be repeated within a run and give the same result again; a repeated BUILD
empties the code table until the next GENCODE. -/
def Obligations.RepeatedBuildAndGencodeGiveTheSame : Prop :=
  ∀ s : State, Inv s →
    (s.status.treeValid = true → exec .build s = .next { s with
      code := [], rev := [], status := { s.status with ctValid := false } }) ∧
    (s.status.ctValid = true → exec .gencode s = .next s ∧
      exec .gencode { s with
        code := [], rev := [], status := { s.status with ctValid := false } } = .next s)

/-! ### PACK -/

/-- R152, R157: PACK completes when CT_VALID is set, the regions are in order, every symbol of the text has
a code and the artifact fits in DCAP. It then writes the artifact at DST, RLEN, PLEN and EXTRA, nothing
else. Otherwise it reports the first of SEQ(5), RANGE(0), RANGE(1), RANGE(2), NOCODE(i), DSTCAP(0) that
applies (R158) and writes nothing. -/
def Obligations.PackResult : Prop :=
  (∀ (s : State) (p : Bits), s.params.memSize ≤ 2 ^ 28 → s.status.ctValid = true → RegionsOk s →
    payloadOf s.code (s.readBytes s.src.toNat s.slen.toNat) = some p →
    p.length / 8 + 2 ≤ s.dcap.toNat →
    ∃ t, exec .pack s = .next t ∧
      t = { s with mem := t.mem, rlen := t.rlen, plen := t.plen, extra := t.extra } ∧
      t.rlen.toNat = p.length / 8 + 2 ∧ t.plen.toNat = p.length ∧
      t.extra.toNat = 8 - p.length % 8 ∧
      t.readBytes s.dst.toNat (p.length / 8 + 2) = artifact p ∧
      ∀ a, (a < s.dst.toNat ∨ s.dst.toNat + (p.length / 8 + 2) ≤ a) → t.readByte a = s.readByte a) ∧
  ∀ s : State,
    (s.status.ctValid = false → exec .pack s = .next (s.faulted 2 5)) ∧
    (s.status.ctValid = true → s.params.memSize < s.src.toNat + s.slen.toNat →
      exec .pack s = .next (s.faulted 3 0)) ∧
    (s.status.ctValid = true → s.src.toNat + s.slen.toNat ≤ s.params.memSize →
      s.params.memSize < s.dst.toNat + s.dcap.toNat → exec .pack s = .next (s.faulted 3 1)) ∧
    (s.status.ctValid = true → s.src.toNat + s.slen.toNat ≤ s.params.memSize →
      s.dst.toNat + s.dcap.toNat ≤ s.params.memSize → s.slen ≠ 0 → s.dcap ≠ 0 →
      s.dst.toNat < s.src.toNat + s.slen.toNat → s.src.toNat < s.dst.toNat + s.dcap.toNat →
      exec .pack s = .next (s.faulted 3 2)) ∧
    (s.status.ctValid = true → RegionsOk s → ∀ (u v : List Symbol) (x : Symbol),
      s.readBytes s.src.toNat s.slen.toNat = u ++ x :: v →
      (∀ y ∈ u, (codeAt s.code y).isSome = true) → codeAt s.code x = none →
      exec .pack s = .next (s.faulted 4 (BitVec.ofNat 32 u.length))) ∧
    (s.status.ctValid = true → RegionsOk s → ∀ p : Bits,
      payloadOf s.code (s.readBytes s.src.toNat s.slen.toNat) = some p →
      s.dcap.toNat < p.length / 8 + 2 → exec .pack s = .next (s.faulted 5 0))

/-- R156: the length laws of a completed PACK. -/
def Obligations.PackLengthLaws : Prop :=
  ∀ s t : State, s.params.memSize ≤ 2 ^ 28 → s.status.fault = false → exec .pack s = .next t →
    t.status.fault = false →
    t.extra.toNat = 8 - t.plen.toNat % 8 ∧
    t.rlen.toNat = (8 + t.plen.toNat + t.extra.toNat) / 8 ∧
    t.rlen.toNat = t.plen.toNat / 8 + 2 ∧
    (t.readByte s.dst.toNat).toNat = t.extra.toNat ∧
    t.plen.toNat = ((s.readBytes s.src.toNat s.slen.toNat).map fun x =>
      ((codeAt s.code x).getD []).length).sum

/-! ### UNPACK -/

/-- R172, with R174 to R179: with CT_VALID set, the regions in order and a code that is prefix-free, UNPACK
completes on every artifact whose bits are a header byte, a concatenation of codes and as many further bits
as the header says, if the symbols fit in DCAP. It then writes the symbols at DST, RLEN, PLEN and EXTRA,
nothing else. Otherwise it reports the first of SEQ(6), RANGE(0), RANGE(1), RANGE(2), FORMAT(0),
FORMAT(extra), UNTERMINATED(start), DSTCAP(0) that applies (R181) and writes nothing. -/
def Obligations.UnpackResult : Prop :=
  (∀ (s : State) (x : Byte) (es : List RevEntry) (pad : Bits), s.params.memSize ≤ 2 ^ 28 →
    s.status.ctValid = true → RegionsOk s → CodesOk s → (∀ e ∈ es, e ∈ s.revEntries) →
    bitsOfBytes (s.readBytes s.src.toNat s.slen.toNat) = bits8 x ++ es.flatMap (·.bits) ++ pad →
    pad.length = x.toNat → es.length ≤ s.dcap.toNat →
    ∃ t, exec .unpack s = .next t ∧
      t = { s with mem := t.mem, rlen := t.rlen, plen := t.plen, extra := t.extra } ∧
      t.rlen.toNat = es.length ∧ t.plen.toNat = (es.flatMap (·.bits)).length ∧ t.extra = x ∧
      t.readBytes s.dst.toNat es.length = es.map (·.sym) ∧
      ∀ a, (a < s.dst.toNat ∨ s.dst.toNat + es.length ≤ a) → t.readByte a = s.readByte a) ∧
  ∀ s : State,
    (s.status.ctValid = false → exec .unpack s = .next (s.faulted 2 6)) ∧
    (s.status.ctValid = true → s.params.memSize < s.src.toNat + s.slen.toNat →
      exec .unpack s = .next (s.faulted 3 0)) ∧
    (s.status.ctValid = true → s.src.toNat + s.slen.toNat ≤ s.params.memSize →
      s.params.memSize < s.dst.toNat + s.dcap.toNat → exec .unpack s = .next (s.faulted 3 1)) ∧
    (s.status.ctValid = true → s.src.toNat + s.slen.toNat ≤ s.params.memSize →
      s.dst.toNat + s.dcap.toNat ≤ s.params.memSize → s.slen ≠ 0 → s.dcap ≠ 0 →
      s.dst.toNat < s.src.toNat + s.slen.toNat → s.src.toNat < s.dst.toNat + s.dcap.toNat →
      exec .unpack s = .next (s.faulted 3 2)) ∧
    (s.status.ctValid = true → RegionsOk s → s.slen = 0 → exec .unpack s = .next (s.faulted 6 0)) ∧
    (s.status.ctValid = true → RegionsOk s → s.slen ≠ 0 →
      8 * (s.slen.toNat - 1) < (s.readByte s.src.toNat).toNat →
      exec .unpack s = .next (s.faulted 6 ((s.readByte s.src.toNat).setWidth 32))) ∧
    (s.status.ctValid = true → RegionsOk s → CodesOk s →
      ∀ (x : Byte) (es : List RevEntry) (tail pad : Bits), (∀ e ∈ es, e ∈ s.revEntries) →
      bitsOfBytes (s.readBytes s.src.toNat s.slen.toNat) =
        bits8 x ++ (es.flatMap (·.bits) ++ tail) ++ pad → pad.length = x.toNat →
      (tail ≠ [] → (∀ e ∈ s.revEntries, ¬ e.bits <+: tail) →
        exec .unpack s = .next (s.faulted 7 (BitVec.ofNat 32 (es.flatMap (·.bits)).length))) ∧
      (tail = [] → s.dcap.toNat < es.length → exec .unpack s = .next (s.faulted 5 0)))

/-- R178, R179, R181, R182: UNPACK has an outcome on every artifact. Every payload is a concatenation of codes and
a rest, possibly empty, that no code begins, and the Decoder gives the symbols of the codes, or UNTERMINATED
where the rest begins. So with CT_VALID set, the regions in order and a header that claims no more bits than
follow it, UNPACK reports UNTERMINATED(start) when there is a rest, else DSTCAP(0) when the symbols do not
fit, and else completes with the symbols at DST, RLEN, PLEN and EXTRA, nothing else. -/
def Obligations.UnpackOfEveryArtifact : Prop :=
  ∀ s : State, CodesOk s →
    (∀ payload : Bits, ∃ (es : List RevEntry) (tail : Bits),
      (∀ e ∈ es, e ∈ s.revEntries) ∧ payload = es.flatMap (·.bits) ++ tail ∧
      (∀ e ∈ s.revEntries, ¬ e.bits <+: tail) ∧
      decodeBits s.revEntries 0 0 [] payload =
        if tail = [] then .ok (es.map (·.sym))
        else .error
          { cause := .unterminated, info := BitVec.ofNat 32 (es.flatMap (·.bits)).length }) ∧
    (s.params.memSize ≤ 2 ^ 28 → s.status.ctValid = true → RegionsOk s → s.slen ≠ 0 →
      (s.readByte s.src.toNat).toNat ≤ 8 * (s.slen.toNat - 1) →
      ∃ (es : List RevEntry) (tail pad : Bits), (∀ e ∈ es, e ∈ s.revEntries) ∧
        bitsOfBytes (s.readBytes s.src.toNat s.slen.toNat) =
          bits8 (s.readByte s.src.toNat) ++ (es.flatMap (·.bits) ++ tail) ++ pad ∧
        pad.length = (s.readByte s.src.toNat).toNat ∧ (∀ e ∈ s.revEntries, ¬ e.bits <+: tail) ∧
        (tail ≠ [] →
          exec .unpack s = .next (s.faulted 7 (BitVec.ofNat 32 (es.flatMap (·.bits)).length))) ∧
        (tail = [] → s.dcap.toNat < es.length → exec .unpack s = .next (s.faulted 5 0)) ∧
        (tail = [] → es.length ≤ s.dcap.toNat →
          ∃ t, exec .unpack s = .next t ∧
            t = { s with mem := t.mem, rlen := t.rlen, plen := t.plen, extra := t.extra } ∧
            t.rlen.toNat = es.length ∧ t.plen.toNat = (es.flatMap (·.bits)).length ∧
            t.extra = s.readByte s.src.toNat ∧
            t.readBytes s.dst.toNat es.length = es.map (·.sym) ∧
            ∀ a, (a < s.dst.toNat ∨ s.dst.toNat + es.length ≤ a) → t.readByte a = s.readByte a))

/-! ### Round trips -/

/-- R183: UNPACK of exactly the bytes a completed PACK wrote, with the same table still held and room for
the text, completes and writes the text. -/
def Obligations.UnpackInvertsPack : Prop :=
  ∀ (s t : State) (d c : Word), s.params.memSize ≤ 2 ^ 28 → CodesOk s → s.status.fault = false →
    exec .pack s = .next t → t.status.fault = false →
    RegionsOk { t with src := s.dst, slen := t.rlen, dst := d, dcap := c } →
    s.slen.toNat ≤ c.toNat →
    ∃ u, exec .unpack { t with src := s.dst, slen := t.rlen, dst := d, dcap := c } = .next u ∧
      u.status = s.status ∧
      u.readBytes d.toNat s.slen.toNat = s.readBytes s.src.toNat s.slen.toNat ∧
      u.rlen = s.slen ∧ u.plen = t.plen ∧ u.extra = t.extra

/-- R199: compress never faults when the operands pass the range check and DCAP is at least (SLEN·255) div
8 + 2. -/
def Obligations.CompressNeverFaults : Prop :=
  ∀ s : State, Inv s → s.status.fault = false → RegionsOk s →
    s.slen.toNat * 255 / 8 + 2 ≤ s.dcap.toNat →
    ∃ t₁ t₂ t₃ t₄, exec .analyze s = .next t₁ ∧ exec .build t₁ = .next t₂ ∧
      exec .gencode t₂ = .next t₃ ∧ exec .pack t₃ = .next t₄ ∧
      t₁.status.fault = false ∧ t₂.status.fault = false ∧ t₃.status.fault = false ∧
      t₄.status = { fault := false, ftValid := true, treeValid := true, ctValid := true }

/-- R201: for every text, the empty one included, with operands that pass the range checks, ANALYZE, BUILD
and GENCODE complete without fault and leave a payload for it; if the artifact fits in DCAP, PACK completes
without fault too, and then UNPACK of exactly the RLEN bytes it wrote, into any window that is in order and
large enough, completes without fault and writes the text. -/
def Obligations.CodecRoundTrip : Prop :=
  ∀ s : State, Inv s → s.status.fault = false → RegionsOk s →
    ∃ t₁ t₂ t₃ p, exec .analyze s = .next t₁ ∧ exec .build t₁ = .next t₂ ∧
      exec .gencode t₂ = .next t₃ ∧ t₁.status.fault = false ∧ t₂.status.fault = false ∧
      t₃.status.fault = false ∧
      payloadOf t₃.code (s.readBytes s.src.toNat s.slen.toNat) = some p ∧
      (p.length / 8 + 2 ≤ s.dcap.toNat →
        ∃ t₄, exec .pack t₃ = .next t₄ ∧ t₄.status.fault = false ∧
          ∀ d c : Word, RegionsOk { t₄ with src := s.dst, slen := t₄.rlen, dst := d, dcap := c } →
            s.slen.toNat ≤ c.toNat →
            ∃ u, exec .unpack { t₄ with src := s.dst, slen := t₄.rlen, dst := d, dcap := c } =
                .next u ∧
              u.status.fault = false ∧ u.rlen = s.slen ∧
              u.readBytes d.toNat s.slen.toNat = s.readBytes s.src.toNat s.slen.toNat)

/-- R202: compress is a function of the text: two runs over equal texts give equal tables and equal
artifacts, whatever else their states hold. -/
def Obligations.CompressIsAFunctionOfTheText : Prop :=
  ∀ s t₁ t₂ t₃ t₄ s' t₁' t₂' t₃' t₄' : State, Inv s → Inv s' →
    s.status.fault = false → s'.status.fault = false →
    exec .analyze s = .next t₁ → exec .build t₁ = .next t₂ → exec .gencode t₂ = .next t₃ →
    exec .pack t₃ = .next t₄ → t₁.status.fault = false → t₄.status.fault = false →
    exec .analyze s' = .next t₁' → exec .build t₁' = .next t₂' → exec .gencode t₂' = .next t₃' →
    exec .pack t₃' = .next t₄' → t₁'.status.fault = false → t₄'.status.fault = false →
    s.readBytes s.src.toNat s.slen.toNat = s'.readBytes s'.src.toNat s'.slen.toNat →
    t₄.freq = t₄'.freq ∧ t₄.node = t₄'.node ∧ t₄.code = t₄'.code ∧ t₄.rev = t₄'.rev ∧
      t₄.rlen = t₄'.rlen ∧ t₄.plen = t₄'.plen ∧ t₄.extra = t₄'.extra ∧
      t₄.readBytes s.dst.toNat t₄.rlen.toNat = t₄'.readBytes s'.dst.toNat t₄'.rlen.toNat

/-! ### The whole machine -/

/-- R193: a command that faults changes exactly FAULT, ERR and ERRINFO. -/
def Obligations.FaultingCommandChangesOnlyFaultRegisters : Prop :=
  ∀ (i : Instr) (s t : State), exec i s = .next t → s.status.fault = false → t.status.fault = true →
    t = s.faulted t.err t.errInfo ∧ 2 ≤ t.err.toNat ∧ t.err.toNat ≤ 7

/-- R228, R24, R227: no step overwrites a recorded fault. ERR and ERRINFO stay while FAULT stays set; only
CLEAR, FACK and reset clear it, and then both are 0. -/
def Obligations.FaultsDoNotNest : Prop :=
  ∀ s t : State, s.status.fault = true → step s = .next t →
    (t.status.fault = true ∧ t.err = s.err ∧ t.errInfo = s.errInfo) ∨
      (t.status.fault = false ∧ t.err = 0 ∧ t.errInfo = 0 ∧
        (s.pending.head? = some .reset ∨ s.pending.head? = some (.tx (.wr 0 0x00000001#32)) ∨
          s.pending.head? = some (.tx (.wr 0 0x00000007#32))))

/-- R195: the stage flag a completed command required and the flags it leaves. -/
def Obligations.StageFlagsOfCompletedCommands : Prop :=
  ∀ (i : Instr) (s t : State), exec i s = .next t → s.status.fault = false →
    t.status.fault = false →
    match i with
    | .clear => t.status = { fault := false, ftValid := false, treeValid := false, ctValid := false }
    | .analyze => t.status = { fault := false, ftValid := true, treeValid := false, ctValid := false }
    | .build => s.status.ftValid = true ∧
        t.status = { fault := false, ftValid := true, treeValid := true, ctValid := false }
    | .gencode => s.status.treeValid = true ∧ t.status = { s.status with ctValid := true }
    | .pack => s.status.ctValid = true ∧ t.status = s.status
    | .unpack => s.status.ctValid = true ∧ t.status = s.status
    | .fack => t.status = s.status

/-- R62, the writes: a byte of MEM that a command changes lies in [DST, DST + RLEN) of a PACK or UNPACK, and
RLEN ≤ DCAP. -/
def Obligations.CommandsWriteOnlyTheDestination : Prop :=
  ∀ (i : Instr) (s t : State), exec i s = .next t → ∀ a, t.readByte a ≠ s.readByte a →
    (i = .pack ∨ i = .unpack) ∧ s.dst.toNat ≤ a ∧ a < s.dst.toNat + t.rlen.toNat ∧
      t.rlen.toNat ≤ s.dcap.toNat

/-- R62, the reads: CLEAR, BUILD, GENCODE and FACK read no byte of MEM, ANALYZE, PACK and UNPACK none outside
[SRC, SRC + SLEN). A command on a state that differs only in other bytes leaves the same registers and
tables, and each byte of MEM it leaves either is the same in both runs or is untouched in both. -/
def Obligations.CommandsReadOnlyTheSource : Prop :=
  ∀ (i : Instr) (s t : State) (mem : Memory), exec i s = .next t →
    (i = .analyze ∨ i = .pack ∨ i = .unpack →
      ∀ a, s.src.toNat ≤ a → a < s.src.toNat + s.slen.toNat →
        State.readByte { s with mem := mem } a = s.readByte a) →
    ∃ mem', exec i { s with mem := mem } = .next { t with mem := mem' } ∧
      ∀ a, State.readByte { t with mem := mem' } a = t.readByte a ∨
        (State.readByte { t with mem := mem' } a = State.readByte { s with mem := mem } a ∧
          t.readByte a = s.readByte a)

/-- R27, R31: no command writes SRC, SLEN, DST, DCAP or TSEL; nor does one change MEM_SIZE or what the host
sends and has been returned. -/
def Obligations.OperandRegistersNeverWritten : Prop :=
  ∀ (i : Instr) (s t : State), exec i s = .next t →
    t.src = s.src ∧ t.slen = s.slen ∧ t.dst = s.dst ∧ t.dcap = s.dcap ∧ t.tsel = s.tsel ∧
    t.params = s.params ∧ t.memEpoch = s.memEpoch ∧ t.pending = s.pending ∧ t.reply = s.reply

/-- R43: the tables keep their contents across PACK, UNPACK and FACK and across every host access. -/
def Obligations.TablesKeptByPackUnpackFackAndHostAccess : Prop :=
  (∀ (i : Instr) (s t : State), (i = .pack ∨ i = .unpack ∨ i = .fack) → exec i s = .next t →
    t.freq = s.freq ∧ t.ndist = s.ndist ∧ t.node = s.node ∧ t.nnodes = s.nnodes ∧
    t.root = s.root ∧ t.code = s.code ∧ t.rev = s.rev) ∧
  ∀ (s t : State) (tr : Transaction) (rest : List HostEvent), s.pending = .tx tr :: rest →
    (∀ v, tr ≠ .wr 0 v) → step s = .next t →
    t.freq = s.freq ∧ t.ndist = s.ndist ∧ t.node = s.node ∧ t.nnodes = s.nnodes ∧
    t.root = s.root ∧ t.code = s.code ∧ t.rev = s.rev ∧ t.status = s.status ∧
    t.err = s.err ∧ t.errInfo = s.errInfo

/-- The invariant holds after reset. -/
def Obligations.InvariantHoldsAtReset : Prop := Inv State.reset

/-- Every step keeps the invariant: the flags legal and the emptied tables behind clear flags (R25, R44), ERR
and ERRINFO 0 without a fault (R26), MEM canonical and inside MEM_SIZE (R60), no count too large (R36), the
later tables what BUILD and GENCODE make of FREQ (R129, R144). -/
def Obligations.StepKeepsTheInvariant : Prop :=
  ∀ s t : State, Inv s → step s = .next t → Inv t

/-- R190, R15: no stuck state: in every state that meets the invariant, whatever the host sends, the step has
a next state. -/
def Obligations.StepNeverStops : Prop :=
  ∀ s : State, Inv s → ∃ t, step s = .next t
end

