-- ==== Sys2Proof/Laws/State.lean ====
section
/-! SUPPORT. One lemma per field and update of State: what the update writes there, or that it leaves the
field alone. Later proofs rewrite with these and unfold no record update. -/

namespace Sys2Proof.Machine

variable (s : State)

/-! ### writeByte -/

@[simp] theorem writeByte_params (a : Nat) (v : Byte) : (s.writeByte a v).params = s.params := rfl
@[simp] theorem writeByte_status (a : Nat) (v : Byte) : (s.writeByte a v).status = s.status := rfl
@[simp] theorem writeByte_err (a : Nat) (v : Byte) : (s.writeByte a v).err = s.err := rfl
@[simp] theorem writeByte_errInfo (a : Nat) (v : Byte) :
    (s.writeByte a v).errInfo = s.errInfo := rfl
@[simp] theorem writeByte_src (a : Nat) (v : Byte) : (s.writeByte a v).src = s.src := rfl
@[simp] theorem writeByte_slen (a : Nat) (v : Byte) : (s.writeByte a v).slen = s.slen := rfl
@[simp] theorem writeByte_dst (a : Nat) (v : Byte) : (s.writeByte a v).dst = s.dst := rfl
@[simp] theorem writeByte_dcap (a : Nat) (v : Byte) : (s.writeByte a v).dcap = s.dcap := rfl
@[simp] theorem writeByte_rlen (a : Nat) (v : Byte) : (s.writeByte a v).rlen = s.rlen := rfl
@[simp] theorem writeByte_plen (a : Nat) (v : Byte) : (s.writeByte a v).plen = s.plen := rfl
@[simp] theorem writeByte_extra (a : Nat) (v : Byte) : (s.writeByte a v).extra = s.extra := rfl
@[simp] theorem writeByte_ndist (a : Nat) (v : Byte) : (s.writeByte a v).ndist = s.ndist := rfl
@[simp] theorem writeByte_nnodes (a : Nat) (v : Byte) : (s.writeByte a v).nnodes = s.nnodes := rfl
@[simp] theorem writeByte_root (a : Nat) (v : Byte) : (s.writeByte a v).root = s.root := rfl
@[simp] theorem writeByte_tsel (a : Nat) (v : Byte) : (s.writeByte a v).tsel = s.tsel := rfl
@[simp] theorem writeByte_freq (a : Nat) (v : Byte) : (s.writeByte a v).freq = s.freq := rfl
@[simp] theorem writeByte_node (a : Nat) (v : Byte) : (s.writeByte a v).node = s.node := rfl
@[simp] theorem writeByte_code (a : Nat) (v : Byte) : (s.writeByte a v).code = s.code := rfl
@[simp] theorem writeByte_rev (a : Nat) (v : Byte) : (s.writeByte a v).rev = s.rev := rfl
@[simp] theorem writeByte_mem (a : Nat) (v : Byte) :
    (s.writeByte a v).mem = cellPut s.mem a v := rfl
@[simp] theorem writeByte_memEpoch (a : Nat) (v : Byte) :
    (s.writeByte a v).memEpoch = s.memEpoch := rfl
@[simp] theorem writeByte_pending (a : Nat) (v : Byte) :
    (s.writeByte a v).pending = s.pending := rfl
@[simp] theorem writeByte_reply (a : Nat) (v : Byte) : (s.writeByte a v).reply = s.reply := rfl

/-! ### writeBytes -/

@[simp] theorem writeBytes_params (a : Nat) (bs : List Byte) :
    (s.writeBytes a bs).params = s.params := rfl
@[simp] theorem writeBytes_status (a : Nat) (bs : List Byte) :
    (s.writeBytes a bs).status = s.status := rfl
@[simp] theorem writeBytes_err (a : Nat) (bs : List Byte) : (s.writeBytes a bs).err = s.err := rfl
@[simp] theorem writeBytes_errInfo (a : Nat) (bs : List Byte) :
    (s.writeBytes a bs).errInfo = s.errInfo := rfl
@[simp] theorem writeBytes_src (a : Nat) (bs : List Byte) : (s.writeBytes a bs).src = s.src := rfl
@[simp] theorem writeBytes_slen (a : Nat) (bs : List Byte) :
    (s.writeBytes a bs).slen = s.slen := rfl
@[simp] theorem writeBytes_dst (a : Nat) (bs : List Byte) : (s.writeBytes a bs).dst = s.dst := rfl
@[simp] theorem writeBytes_dcap (a : Nat) (bs : List Byte) :
    (s.writeBytes a bs).dcap = s.dcap := rfl
@[simp] theorem writeBytes_rlen (a : Nat) (bs : List Byte) :
    (s.writeBytes a bs).rlen = s.rlen := rfl
@[simp] theorem writeBytes_plen (a : Nat) (bs : List Byte) :
    (s.writeBytes a bs).plen = s.plen := rfl
@[simp] theorem writeBytes_extra (a : Nat) (bs : List Byte) :
    (s.writeBytes a bs).extra = s.extra := rfl
@[simp] theorem writeBytes_ndist (a : Nat) (bs : List Byte) :
    (s.writeBytes a bs).ndist = s.ndist := rfl
@[simp] theorem writeBytes_nnodes (a : Nat) (bs : List Byte) :
    (s.writeBytes a bs).nnodes = s.nnodes := rfl
@[simp] theorem writeBytes_root (a : Nat) (bs : List Byte) :
    (s.writeBytes a bs).root = s.root := rfl
@[simp] theorem writeBytes_tsel (a : Nat) (bs : List Byte) :
    (s.writeBytes a bs).tsel = s.tsel := rfl
@[simp] theorem writeBytes_freq (a : Nat) (bs : List Byte) :
    (s.writeBytes a bs).freq = s.freq := rfl
@[simp] theorem writeBytes_node (a : Nat) (bs : List Byte) :
    (s.writeBytes a bs).node = s.node := rfl
@[simp] theorem writeBytes_code (a : Nat) (bs : List Byte) :
    (s.writeBytes a bs).code = s.code := rfl
@[simp] theorem writeBytes_rev (a : Nat) (bs : List Byte) : (s.writeBytes a bs).rev = s.rev := rfl
@[simp] theorem writeBytes_mem (a : Nat) (bs : List Byte) :
    (s.writeBytes a bs).mem = memWriteBytes s.mem a bs := rfl
@[simp] theorem writeBytes_memEpoch (a : Nat) (bs : List Byte) :
    (s.writeBytes a bs).memEpoch = s.memEpoch := rfl
@[simp] theorem writeBytes_pending (a : Nat) (bs : List Byte) :
    (s.writeBytes a bs).pending = s.pending := rfl
@[simp] theorem writeBytes_reply (a : Nat) (bs : List Byte) :
    (s.writeBytes a bs).reply = s.reply := rfl

/-! ### emptyFreq -/

@[simp] theorem emptyFreq_params : s.emptyFreq.params = s.params := rfl
@[simp] theorem emptyFreq_status : s.emptyFreq.status = s.status := rfl
@[simp] theorem emptyFreq_err : s.emptyFreq.err = s.err := rfl
@[simp] theorem emptyFreq_errInfo : s.emptyFreq.errInfo = s.errInfo := rfl
@[simp] theorem emptyFreq_src : s.emptyFreq.src = s.src := rfl
@[simp] theorem emptyFreq_slen : s.emptyFreq.slen = s.slen := rfl
@[simp] theorem emptyFreq_dst : s.emptyFreq.dst = s.dst := rfl
@[simp] theorem emptyFreq_dcap : s.emptyFreq.dcap = s.dcap := rfl
@[simp] theorem emptyFreq_rlen : s.emptyFreq.rlen = s.rlen := rfl
@[simp] theorem emptyFreq_plen : s.emptyFreq.plen = s.plen := rfl
@[simp] theorem emptyFreq_extra : s.emptyFreq.extra = s.extra := rfl
@[simp] theorem emptyFreq_ndist : s.emptyFreq.ndist = 0 := rfl
@[simp] theorem emptyFreq_nnodes : s.emptyFreq.nnodes = s.nnodes := rfl
@[simp] theorem emptyFreq_root : s.emptyFreq.root = s.root := rfl
@[simp] theorem emptyFreq_tsel : s.emptyFreq.tsel = s.tsel := rfl
@[simp] theorem emptyFreq_freq : s.emptyFreq.freq = [] := rfl
@[simp] theorem emptyFreq_node : s.emptyFreq.node = s.node := rfl
@[simp] theorem emptyFreq_code : s.emptyFreq.code = s.code := rfl
@[simp] theorem emptyFreq_rev : s.emptyFreq.rev = s.rev := rfl
@[simp] theorem emptyFreq_mem : s.emptyFreq.mem = s.mem := rfl
@[simp] theorem emptyFreq_memEpoch : s.emptyFreq.memEpoch = s.memEpoch := rfl
@[simp] theorem emptyFreq_pending : s.emptyFreq.pending = s.pending := rfl
@[simp] theorem emptyFreq_reply : s.emptyFreq.reply = s.reply := rfl

/-! ### emptyTree -/

@[simp] theorem emptyTree_params : s.emptyTree.params = s.params := rfl
@[simp] theorem emptyTree_status : s.emptyTree.status = s.status := rfl
@[simp] theorem emptyTree_err : s.emptyTree.err = s.err := rfl
@[simp] theorem emptyTree_errInfo : s.emptyTree.errInfo = s.errInfo := rfl
@[simp] theorem emptyTree_src : s.emptyTree.src = s.src := rfl
@[simp] theorem emptyTree_slen : s.emptyTree.slen = s.slen := rfl
@[simp] theorem emptyTree_dst : s.emptyTree.dst = s.dst := rfl
@[simp] theorem emptyTree_dcap : s.emptyTree.dcap = s.dcap := rfl
@[simp] theorem emptyTree_rlen : s.emptyTree.rlen = s.rlen := rfl
@[simp] theorem emptyTree_plen : s.emptyTree.plen = s.plen := rfl
@[simp] theorem emptyTree_extra : s.emptyTree.extra = s.extra := rfl
@[simp] theorem emptyTree_ndist : s.emptyTree.ndist = s.ndist := rfl
@[simp] theorem emptyTree_nnodes : s.emptyTree.nnodes = 0 := rfl
@[simp] theorem emptyTree_root : s.emptyTree.root = Config.noNode := rfl
@[simp] theorem emptyTree_tsel : s.emptyTree.tsel = s.tsel := rfl
@[simp] theorem emptyTree_freq : s.emptyTree.freq = s.freq := rfl
@[simp] theorem emptyTree_node : s.emptyTree.node = [] := rfl
@[simp] theorem emptyTree_code : s.emptyTree.code = s.code := rfl
@[simp] theorem emptyTree_rev : s.emptyTree.rev = s.rev := rfl
@[simp] theorem emptyTree_mem : s.emptyTree.mem = s.mem := rfl
@[simp] theorem emptyTree_memEpoch : s.emptyTree.memEpoch = s.memEpoch := rfl
@[simp] theorem emptyTree_pending : s.emptyTree.pending = s.pending := rfl
@[simp] theorem emptyTree_reply : s.emptyTree.reply = s.reply := rfl

/-! ### emptyCodes -/

@[simp] theorem emptyCodes_params : s.emptyCodes.params = s.params := rfl
@[simp] theorem emptyCodes_status : s.emptyCodes.status = s.status := rfl
@[simp] theorem emptyCodes_err : s.emptyCodes.err = s.err := rfl
@[simp] theorem emptyCodes_errInfo : s.emptyCodes.errInfo = s.errInfo := rfl
@[simp] theorem emptyCodes_src : s.emptyCodes.src = s.src := rfl
@[simp] theorem emptyCodes_slen : s.emptyCodes.slen = s.slen := rfl
@[simp] theorem emptyCodes_dst : s.emptyCodes.dst = s.dst := rfl
@[simp] theorem emptyCodes_dcap : s.emptyCodes.dcap = s.dcap := rfl
@[simp] theorem emptyCodes_rlen : s.emptyCodes.rlen = s.rlen := rfl
@[simp] theorem emptyCodes_plen : s.emptyCodes.plen = s.plen := rfl
@[simp] theorem emptyCodes_extra : s.emptyCodes.extra = s.extra := rfl
@[simp] theorem emptyCodes_ndist : s.emptyCodes.ndist = s.ndist := rfl
@[simp] theorem emptyCodes_nnodes : s.emptyCodes.nnodes = s.nnodes := rfl
@[simp] theorem emptyCodes_root : s.emptyCodes.root = s.root := rfl
@[simp] theorem emptyCodes_tsel : s.emptyCodes.tsel = s.tsel := rfl
@[simp] theorem emptyCodes_freq : s.emptyCodes.freq = s.freq := rfl
@[simp] theorem emptyCodes_node : s.emptyCodes.node = s.node := rfl
@[simp] theorem emptyCodes_code : s.emptyCodes.code = [] := rfl
@[simp] theorem emptyCodes_rev : s.emptyCodes.rev = [] := rfl
@[simp] theorem emptyCodes_mem : s.emptyCodes.mem = s.mem := rfl
@[simp] theorem emptyCodes_memEpoch : s.emptyCodes.memEpoch = s.memEpoch := rfl
@[simp] theorem emptyCodes_pending : s.emptyCodes.pending = s.pending := rfl
@[simp] theorem emptyCodes_reply : s.emptyCodes.reply = s.reply := rfl

/-! ### setResult -/

@[simp] theorem setResult_params (n l x : Nat) : (s.setResult n l x).params = s.params := rfl
@[simp] theorem setResult_status (n l x : Nat) : (s.setResult n l x).status = s.status := rfl
@[simp] theorem setResult_err (n l x : Nat) : (s.setResult n l x).err = s.err := rfl
@[simp] theorem setResult_errInfo (n l x : Nat) : (s.setResult n l x).errInfo = s.errInfo := rfl
@[simp] theorem setResult_src (n l x : Nat) : (s.setResult n l x).src = s.src := rfl
@[simp] theorem setResult_slen (n l x : Nat) : (s.setResult n l x).slen = s.slen := rfl
@[simp] theorem setResult_dst (n l x : Nat) : (s.setResult n l x).dst = s.dst := rfl
@[simp] theorem setResult_dcap (n l x : Nat) : (s.setResult n l x).dcap = s.dcap := rfl
@[simp] theorem setResult_rlen (n l x : Nat) : (s.setResult n l x).rlen = BitVec.ofNat 32 n := rfl
@[simp] theorem setResult_plen (n l x : Nat) : (s.setResult n l x).plen = BitVec.ofNat 32 l := rfl
@[simp] theorem setResult_extra (n l x : Nat) : (s.setResult n l x).extra = BitVec.ofNat 8 x := rfl
@[simp] theorem setResult_ndist (n l x : Nat) : (s.setResult n l x).ndist = s.ndist := rfl
@[simp] theorem setResult_nnodes (n l x : Nat) : (s.setResult n l x).nnodes = s.nnodes := rfl
@[simp] theorem setResult_root (n l x : Nat) : (s.setResult n l x).root = s.root := rfl
@[simp] theorem setResult_tsel (n l x : Nat) : (s.setResult n l x).tsel = s.tsel := rfl
@[simp] theorem setResult_freq (n l x : Nat) : (s.setResult n l x).freq = s.freq := rfl
@[simp] theorem setResult_node (n l x : Nat) : (s.setResult n l x).node = s.node := rfl
@[simp] theorem setResult_code (n l x : Nat) : (s.setResult n l x).code = s.code := rfl
@[simp] theorem setResult_rev (n l x : Nat) : (s.setResult n l x).rev = s.rev := rfl
@[simp] theorem setResult_mem (n l x : Nat) : (s.setResult n l x).mem = s.mem := rfl
@[simp] theorem setResult_memEpoch (n l x : Nat) : (s.setResult n l x).memEpoch = s.memEpoch := rfl
@[simp] theorem setResult_pending (n l x : Nat) : (s.setResult n l x).pending = s.pending := rfl
@[simp] theorem setResult_reply (n l x : Nat) : (s.setResult n l x).reply = s.reply := rfl

/-! ### raise -/

@[simp] theorem raise_params (r : Raised) : (s.raise r).params = s.params := rfl
@[simp] theorem raise_status (r : Raised) :
    (s.raise r).status = { s.status with fault := true } := rfl
@[simp] theorem raise_err (r : Raised) : (s.raise r).err = r.cause.code := rfl
@[simp] theorem raise_errInfo (r : Raised) : (s.raise r).errInfo = r.info := rfl
@[simp] theorem raise_src (r : Raised) : (s.raise r).src = s.src := rfl
@[simp] theorem raise_slen (r : Raised) : (s.raise r).slen = s.slen := rfl
@[simp] theorem raise_dst (r : Raised) : (s.raise r).dst = s.dst := rfl
@[simp] theorem raise_dcap (r : Raised) : (s.raise r).dcap = s.dcap := rfl
@[simp] theorem raise_rlen (r : Raised) : (s.raise r).rlen = s.rlen := rfl
@[simp] theorem raise_plen (r : Raised) : (s.raise r).plen = s.plen := rfl
@[simp] theorem raise_extra (r : Raised) : (s.raise r).extra = s.extra := rfl
@[simp] theorem raise_ndist (r : Raised) : (s.raise r).ndist = s.ndist := rfl
@[simp] theorem raise_nnodes (r : Raised) : (s.raise r).nnodes = s.nnodes := rfl
@[simp] theorem raise_root (r : Raised) : (s.raise r).root = s.root := rfl
@[simp] theorem raise_tsel (r : Raised) : (s.raise r).tsel = s.tsel := rfl
@[simp] theorem raise_freq (r : Raised) : (s.raise r).freq = s.freq := rfl
@[simp] theorem raise_node (r : Raised) : (s.raise r).node = s.node := rfl
@[simp] theorem raise_code (r : Raised) : (s.raise r).code = s.code := rfl
@[simp] theorem raise_rev (r : Raised) : (s.raise r).rev = s.rev := rfl
@[simp] theorem raise_mem (r : Raised) : (s.raise r).mem = s.mem := rfl
@[simp] theorem raise_memEpoch (r : Raised) : (s.raise r).memEpoch = s.memEpoch := rfl
@[simp] theorem raise_pending (r : Raised) : (s.raise r).pending = s.pending := rfl
@[simp] theorem raise_reply (r : Raised) : (s.raise r).reply = s.reply := rfl

/-! ### acknowledge -/

@[simp] theorem acknowledge_params : s.acknowledge.params = s.params := rfl
@[simp] theorem acknowledge_status : s.acknowledge.status = { s.status with fault := false } := rfl
@[simp] theorem acknowledge_err : s.acknowledge.err = 0 := rfl
@[simp] theorem acknowledge_errInfo : s.acknowledge.errInfo = 0 := rfl
@[simp] theorem acknowledge_src : s.acknowledge.src = s.src := rfl
@[simp] theorem acknowledge_slen : s.acknowledge.slen = s.slen := rfl
@[simp] theorem acknowledge_dst : s.acknowledge.dst = s.dst := rfl
@[simp] theorem acknowledge_dcap : s.acknowledge.dcap = s.dcap := rfl
@[simp] theorem acknowledge_rlen : s.acknowledge.rlen = s.rlen := rfl
@[simp] theorem acknowledge_plen : s.acknowledge.plen = s.plen := rfl
@[simp] theorem acknowledge_extra : s.acknowledge.extra = s.extra := rfl
@[simp] theorem acknowledge_ndist : s.acknowledge.ndist = s.ndist := rfl
@[simp] theorem acknowledge_nnodes : s.acknowledge.nnodes = s.nnodes := rfl
@[simp] theorem acknowledge_root : s.acknowledge.root = s.root := rfl
@[simp] theorem acknowledge_tsel : s.acknowledge.tsel = s.tsel := rfl
@[simp] theorem acknowledge_freq : s.acknowledge.freq = s.freq := rfl
@[simp] theorem acknowledge_node : s.acknowledge.node = s.node := rfl
@[simp] theorem acknowledge_code : s.acknowledge.code = s.code := rfl
@[simp] theorem acknowledge_rev : s.acknowledge.rev = s.rev := rfl
@[simp] theorem acknowledge_mem : s.acknowledge.mem = s.mem := rfl
@[simp] theorem acknowledge_memEpoch : s.acknowledge.memEpoch = s.memEpoch := rfl
@[simp] theorem acknowledge_pending : s.acknowledge.pending = s.pending := rfl
@[simp] theorem acknowledge_reply : s.acknowledge.reply = s.reply := rfl

/-! ### takeEvent -/

@[simp] theorem takeEvent_params (es : List HostEvent) : (s.takeEvent es).params = s.params := rfl
@[simp] theorem takeEvent_status (es : List HostEvent) : (s.takeEvent es).status = s.status := rfl
@[simp] theorem takeEvent_err (es : List HostEvent) : (s.takeEvent es).err = s.err := rfl
@[simp] theorem takeEvent_errInfo (es : List HostEvent) :
    (s.takeEvent es).errInfo = s.errInfo := rfl
@[simp] theorem takeEvent_src (es : List HostEvent) : (s.takeEvent es).src = s.src := rfl
@[simp] theorem takeEvent_slen (es : List HostEvent) : (s.takeEvent es).slen = s.slen := rfl
@[simp] theorem takeEvent_dst (es : List HostEvent) : (s.takeEvent es).dst = s.dst := rfl
@[simp] theorem takeEvent_dcap (es : List HostEvent) : (s.takeEvent es).dcap = s.dcap := rfl
@[simp] theorem takeEvent_rlen (es : List HostEvent) : (s.takeEvent es).rlen = s.rlen := rfl
@[simp] theorem takeEvent_plen (es : List HostEvent) : (s.takeEvent es).plen = s.plen := rfl
@[simp] theorem takeEvent_extra (es : List HostEvent) : (s.takeEvent es).extra = s.extra := rfl
@[simp] theorem takeEvent_ndist (es : List HostEvent) : (s.takeEvent es).ndist = s.ndist := rfl
@[simp] theorem takeEvent_nnodes (es : List HostEvent) : (s.takeEvent es).nnodes = s.nnodes := rfl
@[simp] theorem takeEvent_root (es : List HostEvent) : (s.takeEvent es).root = s.root := rfl
@[simp] theorem takeEvent_tsel (es : List HostEvent) : (s.takeEvent es).tsel = s.tsel := rfl
@[simp] theorem takeEvent_freq (es : List HostEvent) : (s.takeEvent es).freq = s.freq := rfl
@[simp] theorem takeEvent_node (es : List HostEvent) : (s.takeEvent es).node = s.node := rfl
@[simp] theorem takeEvent_code (es : List HostEvent) : (s.takeEvent es).code = s.code := rfl
@[simp] theorem takeEvent_rev (es : List HostEvent) : (s.takeEvent es).rev = s.rev := rfl
@[simp] theorem takeEvent_mem (es : List HostEvent) : (s.takeEvent es).mem = s.mem := rfl
@[simp] theorem takeEvent_memEpoch (es : List HostEvent) :
    (s.takeEvent es).memEpoch = s.memEpoch := rfl
@[simp] theorem takeEvent_pending (es : List HostEvent) : (s.takeEvent es).pending = es := rfl
@[simp] theorem takeEvent_reply (es : List HostEvent) : (s.takeEvent es).reply = none := rfl

/-! ### resetEvent -/

@[simp] theorem resetEvent_params : s.resetEvent.params = s.params := rfl
@[simp] theorem resetEvent_status : s.resetEvent.status = Status.reset := rfl
@[simp] theorem resetEvent_err : s.resetEvent.err = 0 := rfl
@[simp] theorem resetEvent_errInfo : s.resetEvent.errInfo = 0 := rfl
@[simp] theorem resetEvent_src : s.resetEvent.src = 0 := rfl
@[simp] theorem resetEvent_slen : s.resetEvent.slen = 0 := rfl
@[simp] theorem resetEvent_dst : s.resetEvent.dst = 0 := rfl
@[simp] theorem resetEvent_dcap : s.resetEvent.dcap = 0 := rfl
@[simp] theorem resetEvent_rlen : s.resetEvent.rlen = 0 := rfl
@[simp] theorem resetEvent_plen : s.resetEvent.plen = 0 := rfl
@[simp] theorem resetEvent_extra : s.resetEvent.extra = 0 := rfl
@[simp] theorem resetEvent_ndist : s.resetEvent.ndist = 0 := rfl
@[simp] theorem resetEvent_nnodes : s.resetEvent.nnodes = 0 := rfl
@[simp] theorem resetEvent_root : s.resetEvent.root = Config.noNode := rfl
@[simp] theorem resetEvent_tsel : s.resetEvent.tsel = 0 := rfl
@[simp] theorem resetEvent_freq : s.resetEvent.freq = [] := rfl
@[simp] theorem resetEvent_node : s.resetEvent.node = [] := rfl
@[simp] theorem resetEvent_code : s.resetEvent.code = [] := rfl
@[simp] theorem resetEvent_rev : s.resetEvent.rev = [] := rfl
@[simp] theorem resetEvent_mem : s.resetEvent.mem = [] := rfl
@[simp] theorem resetEvent_memEpoch : s.resetEvent.memEpoch = s.memEpoch + 1 := rfl
@[simp] theorem resetEvent_pending : s.resetEvent.pending = s.pending := rfl
@[simp] theorem resetEvent_reply : s.resetEvent.reply = none := rfl

/-! ### commitAnalyze -/

@[simp] theorem commitAnalyze_params (t : List Symbol) :
    (s.commitAnalyze t).params = s.params := rfl
@[simp] theorem commitAnalyze_status (t : List Symbol) :
    (s.commitAnalyze t).status = s.status.afterAnalyze := rfl
@[simp] theorem commitAnalyze_err (t : List Symbol) : (s.commitAnalyze t).err = s.err := rfl
@[simp] theorem commitAnalyze_errInfo (t : List Symbol) :
    (s.commitAnalyze t).errInfo = s.errInfo := rfl
@[simp] theorem commitAnalyze_src (t : List Symbol) : (s.commitAnalyze t).src = s.src := rfl
@[simp] theorem commitAnalyze_slen (t : List Symbol) : (s.commitAnalyze t).slen = s.slen := rfl
@[simp] theorem commitAnalyze_dst (t : List Symbol) : (s.commitAnalyze t).dst = s.dst := rfl
@[simp] theorem commitAnalyze_dcap (t : List Symbol) : (s.commitAnalyze t).dcap = s.dcap := rfl
@[simp] theorem commitAnalyze_rlen (t : List Symbol) : (s.commitAnalyze t).rlen = s.rlen := rfl
@[simp] theorem commitAnalyze_plen (t : List Symbol) : (s.commitAnalyze t).plen = s.plen := rfl
@[simp] theorem commitAnalyze_extra (t : List Symbol) : (s.commitAnalyze t).extra = s.extra := rfl
@[simp] theorem commitAnalyze_ndist (t : List Symbol) :
    (s.commitAnalyze t).ndist = BitVec.ofNat 9 (distinct (countText t)) := rfl
@[simp] theorem commitAnalyze_nnodes (t : List Symbol) : (s.commitAnalyze t).nnodes = 0 := rfl
@[simp] theorem commitAnalyze_root (t : List Symbol) :
    (s.commitAnalyze t).root = Config.noNode := rfl
@[simp] theorem commitAnalyze_tsel (t : List Symbol) : (s.commitAnalyze t).tsel = s.tsel := rfl
@[simp] theorem commitAnalyze_freq (t : List Symbol) : (s.commitAnalyze t).freq = freqTable t := rfl
@[simp] theorem commitAnalyze_node (t : List Symbol) : (s.commitAnalyze t).node = [] := rfl
@[simp] theorem commitAnalyze_code (t : List Symbol) : (s.commitAnalyze t).code = [] := rfl
@[simp] theorem commitAnalyze_rev (t : List Symbol) : (s.commitAnalyze t).rev = [] := rfl
@[simp] theorem commitAnalyze_mem (t : List Symbol) : (s.commitAnalyze t).mem = s.mem := rfl
@[simp] theorem commitAnalyze_memEpoch (t : List Symbol) :
    (s.commitAnalyze t).memEpoch = s.memEpoch := rfl
@[simp] theorem commitAnalyze_pending (t : List Symbol) :
    (s.commitAnalyze t).pending = s.pending := rfl
@[simp] theorem commitAnalyze_reply (t : List Symbol) : (s.commitAnalyze t).reply = s.reply := rfl

/-! ### commitBuild -/

@[simp] theorem commitBuild_params : s.commitBuild.params = s.params := rfl
@[simp] theorem commitBuild_status : s.commitBuild.status = s.status.afterBuild := rfl
@[simp] theorem commitBuild_err : s.commitBuild.err = s.err := rfl
@[simp] theorem commitBuild_errInfo : s.commitBuild.errInfo = s.errInfo := rfl
@[simp] theorem commitBuild_src : s.commitBuild.src = s.src := rfl
@[simp] theorem commitBuild_slen : s.commitBuild.slen = s.slen := rfl
@[simp] theorem commitBuild_dst : s.commitBuild.dst = s.dst := rfl
@[simp] theorem commitBuild_dcap : s.commitBuild.dcap = s.dcap := rfl
@[simp] theorem commitBuild_rlen : s.commitBuild.rlen = s.rlen := rfl
@[simp] theorem commitBuild_plen : s.commitBuild.plen = s.plen := rfl
@[simp] theorem commitBuild_extra : s.commitBuild.extra = s.extra := rfl
@[simp] theorem commitBuild_ndist : s.commitBuild.ndist = s.ndist := rfl
@[simp] theorem commitBuild_nnodes :
    s.commitBuild.nnodes = BitVec.ofNat 9 (buildTree s.freq).length := rfl
@[simp] theorem commitBuild_root : s.commitBuild.root = rootOf (buildTree s.freq).length := rfl
@[simp] theorem commitBuild_tsel : s.commitBuild.tsel = s.tsel := rfl
@[simp] theorem commitBuild_freq : s.commitBuild.freq = s.freq := rfl
@[simp] theorem commitBuild_node : s.commitBuild.node = buildTree s.freq := rfl
@[simp] theorem commitBuild_code : s.commitBuild.code = [] := rfl
@[simp] theorem commitBuild_rev : s.commitBuild.rev = [] := rfl
@[simp] theorem commitBuild_mem : s.commitBuild.mem = s.mem := rfl
@[simp] theorem commitBuild_memEpoch : s.commitBuild.memEpoch = s.memEpoch := rfl
@[simp] theorem commitBuild_pending : s.commitBuild.pending = s.pending := rfl
@[simp] theorem commitBuild_reply : s.commitBuild.reply = s.reply := rfl

/-! ### commitGencode -/

@[simp] theorem commitGencode_params (l : List RevEntry) :
    (s.commitGencode l).params = s.params := rfl
@[simp] theorem commitGencode_status (l : List RevEntry) :
    (s.commitGencode l).status = s.status.afterGencode := rfl
@[simp] theorem commitGencode_err (l : List RevEntry) : (s.commitGencode l).err = s.err := rfl
@[simp] theorem commitGencode_errInfo (l : List RevEntry) :
    (s.commitGencode l).errInfo = s.errInfo := rfl
@[simp] theorem commitGencode_src (l : List RevEntry) : (s.commitGencode l).src = s.src := rfl
@[simp] theorem commitGencode_slen (l : List RevEntry) : (s.commitGencode l).slen = s.slen := rfl
@[simp] theorem commitGencode_dst (l : List RevEntry) : (s.commitGencode l).dst = s.dst := rfl
@[simp] theorem commitGencode_dcap (l : List RevEntry) : (s.commitGencode l).dcap = s.dcap := rfl
@[simp] theorem commitGencode_rlen (l : List RevEntry) : (s.commitGencode l).rlen = s.rlen := rfl
@[simp] theorem commitGencode_plen (l : List RevEntry) : (s.commitGencode l).plen = s.plen := rfl
@[simp] theorem commitGencode_extra (l : List RevEntry) : (s.commitGencode l).extra = s.extra := rfl
@[simp] theorem commitGencode_ndist (l : List RevEntry) : (s.commitGencode l).ndist = s.ndist := rfl
@[simp] theorem commitGencode_nnodes (l : List RevEntry) :
    (s.commitGencode l).nnodes = s.nnodes := rfl
@[simp] theorem commitGencode_root (l : List RevEntry) : (s.commitGencode l).root = s.root := rfl
@[simp] theorem commitGencode_tsel (l : List RevEntry) : (s.commitGencode l).tsel = s.tsel := rfl
@[simp] theorem commitGencode_freq (l : List RevEntry) : (s.commitGencode l).freq = s.freq := rfl
@[simp] theorem commitGencode_node (l : List RevEntry) : (s.commitGencode l).node = s.node := rfl
@[simp] theorem commitGencode_code (l : List RevEntry) :
    (s.commitGencode l).code = codeTable l := rfl
@[simp] theorem commitGencode_rev (l : List RevEntry) : (s.commitGencode l).rev = l := rfl
@[simp] theorem commitGencode_mem (l : List RevEntry) : (s.commitGencode l).mem = s.mem := rfl
@[simp] theorem commitGencode_memEpoch (l : List RevEntry) :
    (s.commitGencode l).memEpoch = s.memEpoch := rfl
@[simp] theorem commitGencode_pending (l : List RevEntry) :
    (s.commitGencode l).pending = s.pending := rfl
@[simp] theorem commitGencode_reply (l : List RevEntry) : (s.commitGencode l).reply = s.reply := rfl

/-! ### returning -/

@[simp] theorem returning_params (v : Word) : (s.returning v).params = s.params := rfl
@[simp] theorem returning_status (v : Word) : (s.returning v).status = s.status := rfl
@[simp] theorem returning_err (v : Word) : (s.returning v).err = s.err := rfl
@[simp] theorem returning_errInfo (v : Word) : (s.returning v).errInfo = s.errInfo := rfl
@[simp] theorem returning_src (v : Word) : (s.returning v).src = s.src := rfl
@[simp] theorem returning_slen (v : Word) : (s.returning v).slen = s.slen := rfl
@[simp] theorem returning_dst (v : Word) : (s.returning v).dst = s.dst := rfl
@[simp] theorem returning_dcap (v : Word) : (s.returning v).dcap = s.dcap := rfl
@[simp] theorem returning_rlen (v : Word) : (s.returning v).rlen = s.rlen := rfl
@[simp] theorem returning_plen (v : Word) : (s.returning v).plen = s.plen := rfl
@[simp] theorem returning_extra (v : Word) : (s.returning v).extra = s.extra := rfl
@[simp] theorem returning_ndist (v : Word) : (s.returning v).ndist = s.ndist := rfl
@[simp] theorem returning_nnodes (v : Word) : (s.returning v).nnodes = s.nnodes := rfl
@[simp] theorem returning_root (v : Word) : (s.returning v).root = s.root := rfl
@[simp] theorem returning_tsel (v : Word) : (s.returning v).tsel = s.tsel := rfl
@[simp] theorem returning_freq (v : Word) : (s.returning v).freq = s.freq := rfl
@[simp] theorem returning_node (v : Word) : (s.returning v).node = s.node := rfl
@[simp] theorem returning_code (v : Word) : (s.returning v).code = s.code := rfl
@[simp] theorem returning_rev (v : Word) : (s.returning v).rev = s.rev := rfl
@[simp] theorem returning_mem (v : Word) : (s.returning v).mem = s.mem := rfl
@[simp] theorem returning_memEpoch (v : Word) : (s.returning v).memEpoch = s.memEpoch := rfl
@[simp] theorem returning_pending (v : Word) : (s.returning v).pending = s.pending := rfl
@[simp] theorem returning_reply (v : Word) : (s.returning v).reply = some v := rfl

end Sys2Proof.Machine
end

