-- ==== Sys2Proof/Laws/Cells.lean ====
section
/-! SUPPORT. The laws of data by key and of MEM: read after write, other places unchanged, and every
operation keeps the canonical form. -/

namespace Sys2Proof.Machine

section keys
variable {α : Type}

theorem cellGet_cellPut (m : Cells α) (a b : Nat) (v : α) :
    cellGet (cellPut m a v) b = if b = a then some v else cellGet m b := by
  induction m with
  | nil => simp [cellPut, cellGet]
  | cons c m ih =>
    obtain ⟨k, w⟩ := c
    simp only [cellPut]
    split
    · simp [cellGet]
    · split
      · subst_vars
        simp only [cellGet]
        split <;> rfl
      · simp only [cellGet, ih]
        split
        · subst_vars
          rw [if_neg (by omega)]
        · rfl

theorem mem_cellPut {m : Cells α} {a : Nat} {v : α} {c : Nat × α} (h : c ∈ cellPut m a v) :
    c = (a, v) ∨ c ∈ m := by
  induction m with
  | nil => simpa [cellPut] using h
  | cons d m ih =>
    simp only [cellPut] at h
    split at h
    · simpa using h
    · split at h
      · simp only [List.mem_cons] at h ⊢
        tauto
      · simp only [List.mem_cons] at h ⊢
        rcases h with h | h
        · exact .inr (.inl h)
        · exact (ih h).imp id .inr

theorem rising_cellPut {m : Cells α} (h : Rising m) (a : Nat) (v : α) : Rising (cellPut m a v) := by
  induction m with
  | nil => simp [cellPut]
  | cons d m ih =>
    obtain ⟨hd, hm⟩ := List.pairwise_cons.mp h
    simp only [cellPut]
    split
    · refine List.pairwise_cons.mpr ⟨fun c hc => ?_, h⟩
      rcases List.mem_cons.mp hc with rfl | hc
      · assumption
      · exact Nat.lt_trans ‹a < d.1› (hd c hc)
    · split
      · subst_vars
        exact List.pairwise_cons.mpr ⟨hd, hm⟩
      · refine List.pairwise_cons.mpr ⟨fun c hc => ?_, ih hm⟩
        rcases mem_cellPut hc with rfl | hc
        · show d.1 < a
          omega
        · exact hd c hc

theorem cellGet_eq_none_of_lt {m : Cells α} {a : Nat} (h : ∀ c ∈ m, a < c.1) : cellGet m a = none := by
  induction m with
  | nil => rfl
  | cons d m ih =>
    have hd := h d (by simp)
    simp only [cellGet]
    rw [if_neg (by omega)]
    exact ih fun c hc => h c (by simp [hc])

theorem cellGet_of_mem {m : Cells α} (h : Rising m) {a : Nat} {v : α} (hm : (a, v) ∈ m) :
    cellGet m a = some v := by
  induction m with
  | nil => simp at hm
  | cons d m ih =>
    obtain ⟨hd, hr⟩ := List.pairwise_cons.mp h
    simp only [cellGet]
    rcases List.mem_cons.mp hm with rfl | hm
    · simp
    · have := hd _ hm
      rw [if_neg (by simp at this; omega)]
      exact ih hr hm

theorem mem_of_cellGet {m : Cells α} {a : Nat} {v : α} (h : cellGet m a = some v) : (a, v) ∈ m := by
  induction m with
  | nil => simp [cellGet] at h
  | cons d m ih =>
    obtain ⟨k, w⟩ := d
    simp only [cellGet] at h
    split at h
    · simp_all
    · exact List.mem_cons_of_mem _ (ih h)

theorem cellGet_map {β : Type} (f : α → β) (m : Cells α) (a : Nat) :
    cellGet (m.map fun c => (c.1, f c.2)) a = (cellGet m a).map f := by
  induction m with
  | nil => rfl
  | cons d m ih =>
    simp only [List.map_cons, cellGet, ih]
    split <;> simp

/-- Equal memories are equal data: two canonical forms with the same contents are the same list. -/
theorem cells_ext {m n : Cells α} (hm : Rising m) (hn : Rising n)
    (h : ∀ a, cellGet m a = cellGet n a) : m = n := by
  have key : ∀ c : Nat × α, c ∈ m ↔ c ∈ n := by
    rintro ⟨a, v⟩
    constructor
    · intro hc
      exact mem_of_cellGet (by rw [← h]; exact cellGet_of_mem hm hc)
    · intro hc
      exact mem_of_cellGet (by rw [h]; exact cellGet_of_mem hn hc)
  refine List.Perm.eq_of_pairwise (le := fun a b => a.1 < b.1)
    (fun a b _ _ hab hba => absurd hab (by omega)) hm hn ?_
  have nd : ∀ {l : Cells α}, Rising l → l.Nodup := fun hl =>
    hl.imp fun hab e => by subst e; omega
  exact (List.perm_ext_iff_of_nodup (nd hm) (nd hn)).mpr key

end keys

/-! ### MEM -/

theorem wf_cellPut {size : Nat} {m : Memory} (h : Memory.wf size m) {a : Nat} (ha : a < size) (v : Byte) :
    Memory.wf size (cellPut m a v) := by
  refine ⟨rising_cellPut h.1 a v, fun c hc => ?_⟩
  rcases mem_cellPut hc with rfl | hc
  · exact ha
  · exact h.2 c hc

theorem wf_memWriteBytes {size : Nat} {m : Memory} (h : Memory.wf size m) (a : Nat) (bs : List Byte)
    (ha : a + bs.length ≤ size) : Memory.wf size (memWriteBytes m a bs) := by
  induction bs generalizing m a with
  | nil => exact h
  | cons b bs ih =>
    simp only [List.length_cons] at ha
    exact ih (wf_cellPut h (by omega) b) (a + 1) (by omega)

theorem cellGet_memWriteBytes (m : Memory) (a : Nat) (bs : List Byte) (x : Nat) :
    cellGet (memWriteBytes m a bs) x =
      if a ≤ x ∧ x < a + bs.length then bs[x - a]? else cellGet m x := by
  induction bs generalizing m a with
  | nil =>
    rw [if_neg (by simp)]
    rfl
  | cons b bs ih =>
    simp only [memWriteBytes, ih, cellGet_cellPut, List.length_cons]
    by_cases h : x = a
    · subst h
      rw [if_neg (by omega), if_pos (by omega)]
      simp
    · by_cases h' : a + 1 ≤ x ∧ x < a + 1 + bs.length
      · rw [if_pos h', if_pos (by omega)]
        obtain ⟨d, rfl⟩ : ∃ d, x = a + 1 + d := ⟨x - (a + 1), by omega⟩
        rw [show a + 1 + d - a = d + 1 by omega, show a + 1 + d - (a + 1) = d by omega]
        simp
      · rw [if_neg h', if_neg h, if_neg (by omega)]

theorem readByte_writeByte (s : State) (a b : Nat) (v : Byte) :
    (s.writeByte a v).readByte b = if b = a then v else s.readByte b := by
  simp only [State.readByte, writeByte_mem, writeByte_memEpoch, cellGet_cellPut]
  split <;> rfl

/-- What `writeBytes` does to MEM: the bytes at their places, every other byte as before. -/
theorem readByte_writeBytes (s : State) (a : Nat) (bs : List Byte) (x : Nat) :
    (s.writeBytes a bs).readByte x =
      if h : a ≤ x ∧ x < a + bs.length then bs[x - a]'(by omega) else s.readByte x := by
  simp only [State.readByte, writeBytes_mem, writeBytes_memEpoch, cellGet_memWriteBytes]
  split
  · next h =>
    have hx : x - a < bs.length := by omega
    rw [List.getElem?_eq_getElem hx]
    rfl
  · rfl

theorem readByte_congr {s t : State} (hm : t.mem = s.mem) (he : t.memEpoch = s.memEpoch) (a : Nat) :
    t.readByte a = s.readByte a := by simp only [State.readByte, hm, he]

@[simp] theorem readBytes_length (s : State) (a n : Nat) : (s.readBytes a n).length = n := by
  simp [State.readBytes]

theorem readBytes_getElem (s : State) (a n i : Nat) (h : i < n) :
    (s.readBytes a n)[i]'(by simpa using h) = s.readByte (a + i) := by
  simp [State.readBytes]

theorem readBytes_congr {s t : State} {a n : Nat}
    (h : ∀ x, a ≤ x → x < a + n → t.readByte x = s.readByte x) : t.readBytes a n = s.readBytes a n := by
  simp only [State.readBytes]
  refine List.map_congr_left fun i hi => h _ (by omega) ?_
  have := List.mem_range.mp hi
  omega

/-- Bytes written at an address are read back from it. -/
theorem readBytes_writeBytes_self (s : State) (a : Nat) (bs : List Byte) :
    (s.writeBytes a bs).readBytes a bs.length = bs := by
  refine List.ext_getElem (by simp) fun i h1 h2 => ?_
  rw [readBytes_getElem _ _ _ _ h2, readByte_writeBytes, dif_pos (by omega)]
  congr 1
  omega

/-- Bytes outside the written region are read as before. -/
theorem readBytes_writeBytes_disjoint (s : State) (a : Nat) (bs : List Byte) (b n : Nat)
    (h : n = 0 ∨ bs.length = 0 ∨ b + n ≤ a ∨ a + bs.length ≤ b) :
    (s.writeBytes a bs).readBytes b n = s.readBytes b n := by
  refine readBytes_congr fun x h1 h2 => ?_
  rw [readByte_writeBytes, dif_neg (by omega)]

end Sys2Proof.Machine
end

