-- ==== Sys2Proof/Laws/Analyze.lean ====
section
/-! SUPPORT. What counting a text gives (40_analyze.md R112): each count, their sum, the number of keys, and
the canonical form of the table. -/

namespace Sys2Proof.Machine

/-! ### The symbols 0 to 255 -/

theorem allSymbols_count (s : Symbol) : allSymbols.count s = 1 := by
  revert s
  decide +kernel

theorem mem_allSymbols (s : Symbol) : s ∈ allSymbols :=
  List.count_pos_iff.mp (by rw [allSymbols_count]; exact Nat.one_pos)

theorem allSymbols_length : allSymbols.length = 256 := by simp [allSymbols]

theorem allSymbols_getElem (i : Nat) (h : i < allSymbols.length) : allSymbols[i].toNat = i := by
  have := allSymbols_length
  simp only [allSymbols, List.getElem_map, List.getElem_range, BitVec.toNat_ofNat]
  omega

/-- `for s in 0..255` goes through the symbols in ascending order. -/
theorem allSymbols_ascending : allSymbols.Pairwise fun s t => s.toNat < t.toNat := by
  refine List.pairwise_iff_getElem.mpr fun i j hi hj hij => ?_
  rw [allSymbols_getElem, allSymbols_getElem]
  exact hij

/-! ### The counting loop -/

theorem countOne_get (cnt : Cells Nat) (s t : Symbol) :
    (cellGet (countOne cnt s) t.toNat).getD 0 =
      (cellGet cnt t.toNat).getD 0 + if s = t then 1 else 0 := by
  simp only [countOne, cellGet_cellPut, BitVec.toNat_inj]
  by_cases h : t = s
  · simp [h]
  · simp [h, Ne.symm h]

theorem countFrom_get (text : List Symbol) (cnt : Cells Nat) (t : Symbol) :
    (cellGet (text.foldl countOne cnt) t.toNat).getD 0 =
      (cellGet cnt t.toNat).getD 0 + text.count t := by
  induction text generalizing cnt with
  | nil => simp
  | cons s text ih =>
    rw [List.foldl_cons, ih, countOne_get, List.count_cons]
    simp only [beq_iff_eq]
    omega

/-- cnt[s] after the loop is the number of occurrences of s in the text (R112). -/
theorem countText_get (text : List Symbol) (t : Symbol) :
    (cellGet (countText text) t.toNat).getD 0 = text.count t := by
  simp [countText, countFrom_get, cellGet]

theorem freqAt_freqTable (text : List Symbol) (s : Symbol) :
    freqAt (freqTable text) s = BitVec.ofNat 32 (text.count s) := by
  rw [← countText_get, freqAt, freqTable, cellGet_map]
  cases cellGet (countText text) s.toNat <;> rfl

/-- FREQ[s] as a number: no count of a text of fewer than 2^32 bytes wraps (R36). -/
theorem freqAt_freqTable_toNat {text : List Symbol} (h : text.length < 2 ^ 32) (s : Symbol) :
    (freqAt (freqTable text) s).toNat = text.count s := by
  rw [freqAt_freqTable, BitVec.toNat_ofNat, Nat.mod_eq_of_lt]
  exact Nat.lt_of_le_of_lt List.count_le_length h

theorem keyCount_freqTable {text : List Symbol} (h : text.length < 2 ^ 32) :
    keyCount (freqTable text) = distinct (countText text) := by
  simp only [keyCount, distinct, freqAt_freqTable_toNat h, countText_get]

/-- NDIST is the number of distinct symbols of the text (R112). -/
theorem distinct_eq_card (text : List Symbol) : distinct (countText text) = text.toFinset.card := by
  unfold distinct
  simp only [countText_get]
  rw [← List.toFinset_card_of_nodup]
  · congr 1
    ext x
    simp [mem_allSymbols, List.count_pos_iff]
  · exact (allSymbols_ascending.imp fun hlt he => by subst he; omega).filter _

theorem distinct_le (cnt : Cells Nat) : distinct cnt ≤ 256 := by
  rw [← allSymbols_length]
  exact List.length_filter_le _ _

theorem sum_counts (text : List Symbol) : (allSymbols.map fun s => text.count s).sum = text.length := by
  induction text with
  | nil => simp
  | cons b text ih =>
    have h1 : ∀ l : List Symbol, (l.map fun s => if b == s then 1 else 0).sum = l.count b := by
      intro l
      induction l with
      | nil => rfl
      | cons a l ihl =>
        rw [List.map_cons, List.sum_cons, ihl, List.count_cons, Nat.add_comm, BEq.comm]
    simp only [List.count_cons, List.sum_map_add, ih, h1, allSymbols_count, List.length_cons]

/-- Σ FREQ[s] is the length of the text (R112). -/
theorem totalCount_freqTable {text : List Symbol} (h : text.length < 2 ^ 32) :
    totalCount (freqTable text) = text.length := by
  simp only [totalCount, freqAt_freqTable_toNat h, sum_counts]

/-! ### The canonical form of FREQ -/

theorem countText_form (text : List Symbol) :
    Rising (countText text) ∧ ∀ c ∈ countText text, c.1 < 256 ∧ c.2 ≠ 0 := by
  suffices h : ∀ cnt : Cells Nat, (Rising cnt ∧ ∀ c ∈ cnt, c.1 < 256 ∧ c.2 ≠ 0) →
      Rising (text.foldl countOne cnt) ∧ ∀ c ∈ text.foldl countOne cnt, c.1 < 256 ∧ c.2 ≠ 0 from
    h [] (by simp)
  induction text with
  | nil => exact fun _ h => h
  | cons s text ih =>
    intro cnt h
    rw [List.foldl_cons]
    refine ih _ ⟨rising_cellPut h.1 _ _, fun c hc => ?_⟩
    rcases mem_cellPut hc with rfl | hc
    · exact ⟨s.isLt, by simp⟩
    · exact h.2 c hc

theorem freqTable_form {text : List Symbol} (h : text.length < 2 ^ 32) :
    Rising (freqTable text) ∧ ∀ c ∈ freqTable text, c.1 < Config.nsym ∧ c.2 ≠ 0 := by
  obtain ⟨hr, hc⟩ := countText_form text
  refine ⟨List.pairwise_map.mpr hr, fun c hm => ?_⟩
  obtain ⟨d, hd, rfl⟩ := List.mem_map.mp hm
  refine ⟨(hc d hd).1, fun h0 => (hc d hd).2 ?_⟩
  have hs := countText_get text (BitVec.ofNat 8 d.1)
  have hlt := (hc d hd).1
  rw [BitVec.toNat_ofNat, Nat.mod_eq_of_lt (by omega), cellGet_of_mem hr (v := d.2) hd] at hs
  have hle : text.count (BitVec.ofNat 8 d.1) ≤ text.length := List.count_le_length
  have h0' := congrArg BitVec.toNat h0
  simp only [Option.getD_some, BitVec.toNat_ofNat] at hs h0'
  rw [Nat.mod_eq_of_lt (by omega)] at h0'
  simpa using h0'

/-- Equal counts give equal tables: the table depends on the multiset of the symbols only (R112). -/
theorem freqTable_perm {text text' : List Symbol} (hp : text.Perm text') (h : text.length < 2 ^ 32) :
    freqTable text = freqTable text' := by
  have h' : text'.length < 2 ^ 32 := hp.length_eq ▸ h
  refine cells_ext (freqTable_form h).1 (freqTable_form h').1 fun a => ?_
  rw [freqTable, freqTable, cellGet_map, cellGet_map]
  congr 1
  have key : ∀ {t t' : List Symbol}, t.Perm t' → ∀ n, cellGet (countText t) a = some n →
      cellGet (countText t') a = some n := by
    intro t t' hp n hn
    have hm := (countText_form t).2 _ (mem_of_cellGet hn)
    have e1 := countText_get t (BitVec.ofNat 8 a)
    have e2 := countText_get t' (BitVec.ofNat 8 a)
    have hlt : a < 256 := hm.1
    rw [BitVec.toNat_ofNat, Nat.mod_eq_of_lt (by omega)] at e1 e2
    rw [hn] at e1
    rw [← hp.count_eq, ← e1] at e2
    have hne := hm.2
    cases hc : cellGet (countText t') a with
    | none =>
      rw [hc] at e2
      exact absurd e2.symm hne
    | some k =>
      rw [hc] at e2
      simpa using e2
  cases hc : cellGet (countText text) a with
  | some n => exact (key hp n hc).symm
  | none =>
    cases hc' : cellGet (countText text') a with
    | none => rfl
    | some n =>
      rw [key hp.symm n hc'] at hc
      exact absurd hc (by simp)

end Sys2Proof.Machine
end

