-- ==== Sys2Proof/Laws/Bits.lean ====
section
/-! SUPPORT. Bytes and bit strings (00_scope.md R7), and the artifact format undone: framing,
serializing and the Decoder's first three steps (44_unpack.md R183). -/

namespace Sys2Proof.Machine

@[simp] theorem bits8_length (v : Byte) : (bits8 v).length = 8 := by simp [bits8]

@[simp] theorem zeros_length (k : Nat) : (zeros k).length = k := by simp [zeros]

theorem byteOfBits_bits8 (v : Byte) : byteOfBits (bits8 v) = v := by
  revert v
  decide +kernel

theorem bits8_byteOfBits {b : Bits} (h : b.length = 8) : bits8 (byteOfBits b) = b := by
  match b, h with
  | [b0, b1, b2, b3, b4, b5, b6, b7], _ =>
    revert b0 b1 b2 b3 b4 b5 b6 b7
    decide +kernel

theorem bits8_getElem? (v : Byte) {k : Nat} (hk : k < 8) :
    (bits8 v)[k]? = some (v.getLsbD (7 - k)) := by simp [bits8, hk]

theorem natOfBits_append_singleton (b : Bits) (x : Bool) :
    natOfBits (b ++ [x]) = 2 * natOfBits b + x.toNat := by simp [natOfBits]

/-- Bit k of a string is bit n − 1 − k of the number it stands for, n its length. -/
theorem natOfBits_testBit (b : Bits) (k : Nat) (h : k < b.length) :
    (natOfBits b).testBit (b.length - 1 - k) = b[k] := by
  induction b using List.reverseRecOn generalizing k with
  | nil => simp at h
  | append_singleton b x ih =>
    rw [natOfBits_append_singleton]
    simp only [List.length_append, List.length_singleton] at h ⊢
    by_cases hk : k < b.length
    · rw [List.getElem_append_left hk, ← ih k hk,
        show b.length + 1 - 1 - k = (b.length - 1 - k) + 1 by omega, Nat.testBit_succ]
      congr 1
      cases x <;> simp
      omega
    · obtain rfl : k = b.length := by omega
      cases x <;> simp

theorem bitsOfBytes_length (bs : List Byte) : (bitsOfBytes bs).length = 8 * bs.length := by
  induction bs with
  | nil => rfl
  | cons b bs ih =>
    simp only [bitsOfBytes, List.flatMap_cons, List.length_append, bits8_length, List.length_cons] at ih ⊢
    omega

@[simp] theorem serialize_length (p : Bits) : (serialize p).length = p.length / 8 := by
  simp [serialize]

/-- One chunk of Serialize: the first 8 bits give the first byte. -/
theorem serialize_append {a b : Bits} (h : a.length = 8) :
    serialize (a ++ b) = byteOfBits a :: serialize b := by
  have hl : (a ++ b).length / 8 = b.length / 8 + 1 := by
    rw [List.length_append]
    omega
  simp only [serialize, hl, List.range_succ_eq_map, List.map_cons, List.map_map]
  congr 1
  · simp [← h]
  · refine List.map_congr_left fun j _ => ?_
    simp only [Function.comp]
    rw [List.drop_append, List.drop_eq_nil_of_le (by omega), h]
    simp only [List.nil_append]
    congr 3

/-- The Decoder's step 1 inverts Serialize on a whole number of bytes. -/
theorem bitsOfBytes_serialize {p : Bits} (h : p.length % 8 = 0) : bitsOfBytes (serialize p) = p := by
  induction hn : p.length / 8 generalizing p with
  | zero =>
    have : p = [] := List.eq_nil_of_length_eq_zero (by omega)
    subst this
    rfl
  | succ n ih =>
    have h8 : (p.take 8).length = 8 := by rw [List.length_take]; omega
    have hd : (p.drop 8).length = p.length - 8 := List.length_drop
    rw [← List.take_append_drop 8 p, serialize_append h8]
    simp only [bitsOfBytes, List.flatMap_cons, bits8_byteOfBits h8]
    have := ih (p := p.drop 8) (by rw [hd]; omega) (by rw [hd]; omega)
    simp only [bitsOfBytes] at this
    rw [this]

theorem paddingCount_bounds (n : Nat) : 1 ≤ paddingCount n ∧ paddingCount n ≤ 8 := by
  unfold paddingCount
  omega

theorem frame_length (p : Bits) : (frame p).length = 8 * (p.length / 8 + 2) := by
  simp only [frame, List.length_append, bits8_length, zeros_length, paddingCount]
  omega

@[simp] theorem artifact_length (p : Bits) : (artifact p).length = p.length / 8 + 2 := by
  rw [artifact, serialize_length, frame_length]
  omega

/-- The bits of an artifact are its framing (R94). -/
theorem bitsOfBytes_artifact (p : Bits) : bitsOfBytes (artifact p) = frame p :=
  bitsOfBytes_serialize (by rw [frame_length]; omega)

/-- Steps 2 and 3 of the Decoder on any bytes whose bits are header, payload and that many bits. -/
theorem unframe_eq_ok {bs : List Byte} {x : Byte} {p pad : Bits} (hb : bitsOfBytes bs = bits8 x ++ p ++ pad)
    (hp : pad.length = x.toNat) : unframe bs = .ok { extra := x.toNat, payload := p } := by
  have hl := bitsOfBytes_length bs
  rw [hb] at hl
  simp only [List.length_append, bits8_length] at hl
  have h8 : (bits8 x ++ p ++ pad).take 8 = bits8 x := by
    rw [List.append_assoc, List.take_append_of_le_length (by simp), List.take_of_length_le (by simp)]
  have hd : (bits8 x ++ p ++ pad).drop 8 = p ++ pad := by
    rw [List.append_assoc, List.drop_append_of_le_length (by simp), List.drop_of_length_le (by simp)]
    rfl
  unfold unframe
  rw [if_neg (by omega)]
  simp only [hb, h8, hd, byteOfBits_bits8]
  rw [if_neg (by rw [List.length_append]; omega)]
  simp [hp]

/-- Steps 1 to 3 recover extra and the payload of an artifact (R183). -/
theorem unframe_artifact (p : Bits) :
    unframe (artifact p) = .ok { extra := paddingCount p.length, payload := p } := by
  have hx : (BitVec.ofNat 8 (paddingCount p.length)).toNat = paddingCount p.length := by
    have := paddingCount_bounds p.length
    simp only [BitVec.toNat_ofNat]
    omega
  have := unframe_eq_ok (bs := artifact p) (x := BitVec.ofNat 8 (paddingCount p.length)) (p := p)
    (pad := zeros (paddingCount p.length)) (by rw [bitsOfBytes_artifact]; rfl) (by rw [zeros_length, hx])
  rwa [hx] at this

end Sys2Proof.Machine
end

