-- ==== Sys2Proof/Laws/Walk.lean ====
section
/-! SUPPORT. What a walk of the CodeTableGenerator gives, whatever the table (42_gencode.md R137, R139, R143):
its entries are prefix-free, in lexicographic order, complete and no longer than their number. -/

namespace Sys2Proof.Machine

variable {at' : Nat → Option Node}

/-- The two ways a walk succeeds: at a leaf, or with both subtrees. -/
theorem walk_cases {fuel : Nat} {i : NodeIdx} {p : Bits} {l : List RevEntry}
    (h : walk at' fuel i p = some l) :
    ∃ f n, fuel = f + 1 ∧ at' i.toNat = some n ∧
      ((n.leaf = true ∧ l = [{ sym := n.sym, bits := p }]) ∨
        (n.leaf = false ∧ ∃ a b, walk at' f n.left (p ++ [false]) = some a ∧
          walk at' f n.right (p ++ [true]) = some b ∧ l = a ++ b)) := by
  cases fuel with
  | zero => simp [walk] at h
  | succ f =>
    simp only [walk] at h
    split at h
    · simp at h
    · next n hn =>
      refine ⟨f, n, rfl, hn, ?_⟩
      split at h
      · next hl => exact .inl ⟨hl, by simpa using h.symm⟩
      · next hl =>
        refine .inr ⟨by simpa using hl, ?_⟩
        split at h
        · next a b ha hb => exact ⟨a, b, ha, hb, by simpa using h.symm⟩
        · simp at h

theorem walk_leaf {i : NodeIdx} {n : Node} (hn : at' i.toNat = some n) (hl : n.leaf = true) (f : Nat)
    (p : Bits) : walk at' (f + 1) i p = some [{ sym := n.sym, bits := p }] := by
  simp [walk, hn, hl]

theorem walk_inner {i : NodeIdx} {n : Node} (hn : at' i.toNat = some n) (hl : n.leaf = false) {f : Nat}
    {p : Bits} {a b : List RevEntry} (ha : walk at' f n.left (p ++ [false]) = some a)
    (hb : walk at' f n.right (p ++ [true]) = some b) : walk at' (f + 1) i p = some (a ++ b) := by
  simp [walk, hn, hl, ha, hb]

/-- More fuel and more entries change nothing once a walk has succeeded. -/
theorem walk_mono {at'' : Nat → Option Node} (hat : ∀ i n, at' i = some n → at'' i = some n)
    {f g : Nat} (hfg : f ≤ g) {i : NodeIdx} {p : Bits} {l : List RevEntry}
    (h : walk at' f i p = some l) : walk at'' g i p = some l := by
  induction f generalizing g i p l with
  | zero => simp [walk] at h
  | succ f ih =>
    obtain ⟨f', n, hf, hn, hc⟩ := walk_cases h
    obtain rfl : f = f' := by omega
    obtain ⟨g, rfl⟩ : ∃ g', g = g' + 1 := ⟨g - 1, by omega⟩
    rcases hc with ⟨hl, rfl⟩ | ⟨hl, a, b, ha, hb, rfl⟩
    · exact walk_leaf (hat _ _ hn) hl g p
    · exact walk_inner (hat _ _ hn) hl (ih (by omega) ha) (ih (by omega) hb)

/-- The path so far is put in front of every code. -/
theorem walk_path {f : Nat} {i : NodeIdx} {p q : Bits} {l : List RevEntry}
    (h : walk at' f i p = some l) :
    walk at' f i (q ++ p) = some (l.map fun e => { e with bits := q ++ e.bits }) := by
  induction f generalizing i p l with
  | zero => simp [walk] at h
  | succ f ih =>
    obtain ⟨f', n, hf, hn, hc⟩ := walk_cases h
    obtain rfl : f = f' := by omega
    rcases hc with ⟨hl, rfl⟩ | ⟨hl, a, b, ha, hb, rfl⟩
    · exact walk_leaf hn hl f _
    · rw [List.map_append]
      exact walk_inner hn hl (by rw [List.append_assoc]; exact ih ha)
        (by rw [List.append_assoc]; exact ih hb)

/-- Every code of a walk continues the path it started from. -/
theorem walk_extends {f : Nat} {i : NodeIdx} {p : Bits} {l : List RevEntry}
    (h : walk at' f i p = some l) : ∀ e ∈ l, p <+: e.bits := by
  induction f generalizing i p l with
  | zero => simp [walk] at h
  | succ f ih =>
    obtain ⟨f', n, hf, hn, hc⟩ := walk_cases h
    obtain rfl : f = f' := by omega
    rcases hc with ⟨hl, rfl⟩ | ⟨hl, a, b, ha, hb, rfl⟩
    · simp
    · intro e he
      rcases List.mem_append.mp he with he | he
      · exact (List.prefix_append _ _).trans (ih ha e he)
      · exact (List.prefix_append _ _).trans (ih hb e he)

theorem walk_ne_nil {f : Nat} {i : NodeIdx} {p : Bits} {l : List RevEntry}
    (h : walk at' f i p = some l) : l ≠ [] := by
  induction f generalizing i p l with
  | zero => simp [walk] at h
  | succ f ih =>
    obtain ⟨f', n, hf, hn, hc⟩ := walk_cases h
    obtain rfl : f = f' := by omega
    rcases hc with ⟨hl, rfl⟩ | ⟨hl, a, b, ha, hb, rfl⟩
    · simp
    · simp [ih ha]

/-- R139: the entries of a walk are in ascending lexicographic order. -/
theorem walk_sorted {f : Nat} {i : NodeIdx} {p : Bits} {l : List RevEntry}
    (h : walk at' f i p = some l) : l.Pairwise fun e g => lexBefore e.bits g.bits := by
  induction f generalizing i p l with
  | zero => simp [walk] at h
  | succ f ih =>
    obtain ⟨f', n, hf, hn, hc⟩ := walk_cases h
    obtain rfl : f = f' := by omega
    rcases hc with ⟨hl, rfl⟩ | ⟨hl, a, b, ha, hb, rfl⟩
    · simp
    · refine List.pairwise_append.mpr ⟨ih ha, ih hb, fun e he g hg => ?_⟩
      obtain ⟨u, hu⟩ := walk_extends ha e he
      obtain ⟨v, hv⟩ := walk_extends hb g hg
      exact ⟨p, u, v, by simpa using hu.symm, by simpa using hv.symm⟩

/-- Strings that differ at a common position are no beginnings of each other. -/
theorem lexBefore_not_isPrefix {p q : Bits} (h : lexBefore p q) : ¬ p <+: q ∧ ¬ q <+: p := by
  obtain ⟨c, u, v, rfl, rfl⟩ := h
  simp

/-- R143 (b): a code of a walk is shorter, after the path, than the number of entries. -/
theorem walk_depth {f : Nat} {i : NodeIdx} {p : Bits} {l : List RevEntry}
    (h : walk at' f i p = some l) : ∀ e ∈ l, e.bits.length + 1 ≤ p.length + l.length := by
  induction f generalizing i p l with
  | zero => simp [walk] at h
  | succ f ih =>
    obtain ⟨f', n, hf, hn, hc⟩ := walk_cases h
    obtain rfl : f = f' := by omega
    rcases hc with ⟨hl, rfl⟩ | ⟨hl, a, b, ha, hb, rfl⟩
    · simp
    · intro e he
      have la := List.length_pos_of_ne_nil (walk_ne_nil ha)
      have lb := List.length_pos_of_ne_nil (walk_ne_nil hb)
      rw [List.length_append]
      rcases List.mem_append.mp he with he | he
      · have := ih ha e he
        simp only [List.length_append, List.length_singleton] at this
        omega
      · have := ih hb e he
        simp only [List.length_append, List.length_singleton] at this
        omega

/-- R143 (b): the code is complete, Σ 2^(−len) over a walk is 2^(−|path|). -/
theorem walk_kraft {f : Nat} {i : NodeIdx} {p : Bits} {l : List RevEntry}
    (h : walk at' f i p = some l) :
    (l.map fun e => (1 / 2 : ℚ) ^ e.bits.length).sum = (1 / 2) ^ p.length := by
  induction f generalizing i p l with
  | zero => simp [walk] at h
  | succ f ih =>
    obtain ⟨f', n, hf, hn, hc⟩ := walk_cases h
    obtain rfl : f = f' := by omega
    rcases hc with ⟨hl, rfl⟩ | ⟨hl, a, b, ha, hb, rfl⟩
    · simp
    · rw [List.map_append, List.sum_append, ih ha, ih hb]
      simp only [List.length_append, List.length_singleton, pow_succ]
      ring

/-- R136: every code of a walk is the path of a leaf with its symbol. -/
theorem walk_paths {root : NodeIdx} {f : Nat} {i : NodeIdx} {p : Bits} {l : List RevEntry}
    (h : walk at' f i p = some l) (hp : PathTo at' root i p) :
    ∀ e ∈ l, ∃ j n, PathTo at' root j e.bits ∧ at' j.toNat = some n ∧ n.leaf = true ∧
      n.sym = e.sym := by
  induction f generalizing i p l with
  | zero => simp [walk] at h
  | succ f ih =>
    obtain ⟨f', n, hf, hn, hc⟩ := walk_cases h
    obtain rfl : f = f' := by omega
    rcases hc with ⟨hl, rfl⟩ | ⟨hl, a, b, ha, hb, rfl⟩
    · intro e he
      obtain rfl := List.mem_singleton.mp he
      exact ⟨i, n, hp, hn, hl, rfl⟩
    · intro e he
      rcases List.mem_append.mp he with he | he
      · exact ih ha (hp.left hn hl) e he
      · exact ih hb (hp.right hn hl) e he

/-- R136: a walk from the root assigns the path of every leaf. -/
theorem walk_of_path {root : NodeIdx} {f : Nat} {l : List RevEntry} (h : walk at' f root [] = some l)
    {i : NodeIdx} {p : Bits} (hp : PathTo at' root i p) :
    ∃ g l', walk at' g i p = some l' ∧ ∀ e ∈ l', e ∈ l := by
  induction hp with
  | root => exact ⟨f, l, h, fun _ he => he⟩
  | left _ hn hi ih =>
    obtain ⟨g, l', hw, hs⟩ := ih
    obtain ⟨f', n, _, hn', hc⟩ := walk_cases hw
    obtain rfl : _ = n := Option.some.inj (hn.symm.trans hn')
    rcases hc with ⟨hl, _⟩ | ⟨_, a, b, ha, _, rfl⟩
    · simp [hi] at hl
    · exact ⟨f', a, ha, fun e he => hs e (List.mem_append_left _ he)⟩
  | right _ hn hi ih =>
    obtain ⟨g, l', hw, hs⟩ := ih
    obtain ⟨f', n, _, hn', hc⟩ := walk_cases hw
    obtain rfl : _ = n := Option.some.inj (hn.symm.trans hn')
    rcases hc with ⟨hl, _⟩ | ⟨_, a, b, _, hb, rfl⟩
    · simp [hi] at hl
    · exact ⟨f', b, hb, fun e he => hs e (List.mem_append_right _ he)⟩

end Sys2Proof.Machine
end

