-- ==== Sys2Proof/Laws/Build.lean ====
section
/-! SUPPORT. What the merge loop of BUILD keeps (41_build.md R122 to R126, 10_state.md R37): one inversion of
its step, the invariant of its tables, and its agreement with an unordered queue (R123). -/

namespace Sys2Proof.Machine

/-! ### The queue (R121, R123) -/

theorem enqueue_perm (e : Queued) (q : List Queued) : (enqueue e q).Perm (e :: q) := by
  induction q with
  | nil => exact .refl _
  | cons x q ih =>
    simp only [enqueue]
    split
    · exact .refl _
    · exact (ih.cons x).trans (.swap e x q)

theorem Queued.before_trans {a b c : Queued} (h : a.before b = true) (h' : b.before c = true) :
    a.before c = true := by
  simp only [Queued.before, Bool.or_eq_true, decide_eq_true_eq, Bool.and_eq_true, BitVec.toNat_eq]
    at h h' ⊢
  omega

theorem Queued.before_total {a b : Queued} (h : a.before b = false) (hne : a.idx ≠ b.idx) :
    b.before a = true := by
  simp only [Queued.before, Bool.or_eq_true, decide_eq_true_eq, Bool.and_eq_true, BitVec.toNat_eq,
    Bool.eq_false_iff, ne_eq] at h hne ⊢
  omega

theorem enqueue_sorted {e : Queued} {q : List Queued} (hq : q.Pairwise fun a b => a.before b = true)
    (hne : ∀ x ∈ q, e.idx ≠ x.idx) : (enqueue e q).Pairwise fun a b => a.before b = true := by
  induction q with
  | nil => simp [enqueue]
  | cons x q ih =>
    obtain ⟨hx, hq'⟩ := List.pairwise_cons.mp hq
    simp only [enqueue]
    split
    · next hb =>
      refine List.pairwise_cons.mpr ⟨fun y hy => ?_, hq⟩
      rcases List.mem_cons.mp hy with rfl | hy
      · exact hb
      · exact Queued.before_trans hb (hx y hy)
    · next hb =>
      refine List.pairwise_cons.mpr ⟨fun y hy => ?_, ih hq' fun y hy => hne y (by simp [hy])⟩
      rcases List.mem_cons.mp ((enqueue_perm e q).mem_iff.mp hy) with rfl | hy
      · exact Queued.before_total (by simpa using hb) (hne x (by simp))
      · exact hx y hy

/-! ### The leaves (R124) -/

theorem leafNodes_length (freq : Cells Count) : (leafNodes freq).length = keyCount freq := by
  simp [leafNodes, keyCount]

theorem keyCount_le (freq : Cells Count) : keyCount freq ≤ 256 := by
  rw [← allSymbols_length]
  exact List.length_filter_le _ _

theorem mem_leafNodes {freq : Cells Count} {n : Node} (h : n ∈ leafNodes freq) :
    n.leaf = true ∧ 0 < (freqAt freq n.sym).toNat ∧ n.freq = freqAt freq n.sym ∧
      n.left = Config.noNode ∧ n.right = Config.noNode := by
  obtain ⟨s, hs, rfl⟩ := List.mem_map.mp h
  exact ⟨rfl, by simpa using (List.mem_filter.mp hs).2, rfl, rfl, rfl⟩

theorem leafNodes_symbols (freq : Cells Count) :
    (leafNodes freq).map (·.sym) = allSymbols.filter fun s => 0 < (freqAt freq s).toNat := by
  simp [leafNodes, Function.comp_def]

theorem leafNodes_ascending (freq : Cells Count) :
    (leafNodes freq).Pairwise fun m n : Node => m.sym.toNat < n.sym.toNat := by
  have h := allSymbols_ascending.filter fun s => decide (0 < (freqAt freq s).toNat)
  rw [← leafNodes_symbols] at h
  rwa [List.pairwise_map] at h

theorem sum_leafNodes (freq : Cells Count) :
    ((leafNodes freq).map fun n => n.freq.toNat).sum = totalCount freq := by
  simp only [leafNodes, List.map_map, totalCount]
  have : ∀ l : List Symbol,
      ((l.filter fun s => decide (0 < (freqAt freq s).toNat)).map
        fun s => (freqAt freq s).toNat).sum = (l.map fun s => (freqAt freq s).toNat).sum := by
    intro l
    induction l with
    | nil => rfl
    | cons s l ih =>
      rw [List.filter_cons, List.map_cons, List.sum_cons, ← ih]
      split
      · simp
      · next h => simp at h; simp [h]
  exact this _

/-! ### The invariant of the merge loop -/

/-- Where the merge loop stands: the table begins with the leaves, the queue holds the roots of a forest
over them. -/
structure Forest (leaves nodes : List Node) (q : List Queued) : Prop where
  /-- The leaves come first, every later node is internal. -/
  leading : leaves <+: nodes
  inner : ∀ i n, leaves.length ≤ i → nodes[i]? = some n → n.leaf = false
  /-- One node more for each merge, one queue entry less. -/
  size : nodes.length + q.length = 2 * leaves.length
  /-- A queue entry carries the frequency of its node. -/
  entries : ∀ e ∈ q, ∃ n, nodes[e.idx.toNat]? = some n ∧ n.freq = e.freq
  /-- Every node is in the queue or the child of one internal node, once. -/
  owned : (q.map (·.idx.toNat) ++ childIndices nodes).Perm (List.range nodes.length)
  smaller : ∀ (i : Nat) (n : Node), nodes[i]? = some n → n.leaf = false → n.left.toNat < i ∧ n.right.toNat < i
  sums : ∀ (i : Nat) (n : Node), nodes[i]? = some n → n.leaf = false →
    ∃ l r : Node, nodes[n.left.toNat]? = some l ∧ nodes[n.right.toNat]? = some r ∧
      n.freq.toNat = l.freq.toNat + r.freq.toNat
  /-- The frequencies of the queue add up to those of the leaves. -/
  total : (q.map fun e => e.freq.toNat).sum = (leaves.map fun n => n.freq.toNat).sum
  /-- The walks from the queue reach every leaf once. -/
  walks : ∃ prs : List (Queued × List RevEntry), (prs.map Prod.fst).Perm q ∧
    (∀ pr ∈ prs, walk (fun i => nodes[i]?) (pr.1.idx.toNat + 1) pr.1.idx [] = some pr.2) ∧
    (prs.flatMap fun pr => pr.2.map (·.sym)).Perm (leaves.map (·.sym))

theorem childIndices_append (a b : List Node) : childIndices (a ++ b) = childIndices a ++ childIndices b := by
  simp [childIndices]

theorem childIndices_leaves {l : List Node} (h : ∀ n ∈ l, n.leaf = true) : childIndices l = [] := by
  simp only [childIndices, List.flatMap_eq_nil_iff]
  intro n hn
  simp [h n hn]

theorem toNat_ofNat9 {n : Nat} (h : n < 512) : (BitVec.ofNat 9 n).toNat = n := by
  rw [BitVec.toNat_ofNat, Nat.mod_eq_of_lt (by omega)]

/-- A node that has an owner has one only (R37 d). -/
theorem owner_unique {l : List Node} (h : (childIndices l).Nodup) {i j : Nat} {m n : Node}
    (hi : l[i]? = some m) (hj : l[j]? = some n) (hm : m.leaf = false) (hn : n.leaf = false) {x : Nat}
    (hx : x = m.left.toNat ∨ x = m.right.toNat) (hy : x = n.left.toNat ∨ x = n.right.toNat) : i = j := by
  have hp := (List.nodup_flatMap.mp h).2
  rw [List.pairwise_iff_getElem] at hp
  obtain ⟨hi', rfl⟩ := List.getElem?_eq_some_iff.mp hi
  obtain ⟨hj', rfl⟩ := List.getElem?_eq_some_iff.mp hj
  by_contra hne
  rcases Nat.lt_or_gt_of_ne hne with hlt | hlt
  · have hd := hp i j hi' hj' hlt
    simp only [Function.onFun, hm, hn] at hd
    exact hd (a := x) (by simpa using hx) (by simpa using hy)
  · have hd := hp j i hj' hi' hlt
    simp only [Function.onFun, hm, hn] at hd
    exact hd (a := x) (by simpa using hy) (by simpa using hx)

theorem left_ne_right {l : List Node} (h : (childIndices l).Nodup) {i : Nat} {m : Node}
    (hi : l[i]? = some m) (hm : m.leaf = false) : m.left.toNat ≠ m.right.toNat := by
  have hd := (List.nodup_flatMap.mp h).1 m (List.mem_of_getElem? hi)
  simpa [hm] using hd

theorem queueOf_perm (ns : List Node) (i : Nat) :
    (queueOf ns i).Perm (ns.mapIdx fun j n => queuedOf n (i + j)) := by
  induction ns generalizing i with
  | nil => exact .refl _
  | cons n ns ih =>
    simp only [queueOf, List.mapIdx_cons]
    refine (enqueue_perm _ _).trans (.cons _ ?_)
    refine (ih (i + 1)).trans ?_
    rw [show (fun j n => queuedOf n (i + 1 + j)) = fun j n => queuedOf n (i + (j + 1)) by
      funext j n; congr 1; omega]

theorem mem_queueOf {ns : List Node} {i : Nat} {e : Queued} (h : e ∈ queueOf ns i) :
    ∃ j, ∃ hj : j < ns.length, e = queuedOf ns[j] (i + j) := by
  have := (queueOf_perm ns i).mem_iff.mp h
  obtain ⟨j, hj, rfl⟩ := List.mem_mapIdx.mp this
  exact ⟨j, hj, rfl⟩

theorem queueOf_sorted {ns : List Node} {i : Nat} (h : i + ns.length ≤ 512) :
    (queueOf ns i).Pairwise fun a b => a.before b = true := by
  induction ns generalizing i with
  | nil => exact .nil
  | cons n ns ih =>
    simp only [List.length_cons] at h
    refine enqueue_sorted (ih (by omega)) fun e he heq => ?_
    obtain ⟨j, hj, rfl⟩ := mem_queueOf he
    have := congrArg BitVec.toNat heq
    simp only [queuedOf, BitVec.toNat_ofNat] at this
    omega

theorem flatMap_mapIdx_singleton (ns : List Node) (g : Nat → Node → Queued × List RevEntry)
    (hg : ∀ j n, (g j n).2.map (·.sym) = [n.sym]) :
    ((ns.mapIdx g).flatMap fun pr => pr.2.map (·.sym)) = ns.map (·.sym) := by
  induction ns generalizing g with
  | nil => rfl
  | cons n ns ih =>
    rw [List.mapIdx_cons, List.flatMap_cons, hg, ih _ fun j n => hg (j + 1) n]
    rfl

/-- The loop starts in the invariant. -/
theorem forest_start {leaves : List Node} (hl : ∀ n ∈ leaves, n.leaf = true)
    (hk : leaves.length ≤ 256) : Forest leaves leaves (queueOf leaves 0) := by
  have hp := queueOf_perm leaves 0
  simp only [Nat.zero_add] at hp
  have hidx : (leaves.mapIdx fun j n => queuedOf n j).map (·.idx.toNat) = List.range leaves.length := by
    refine List.ext_getElem (by simp) fun i h1 h2 => ?_
    simp only [List.length_map, List.length_mapIdx] at h1
    simp only [List.getElem_map, List.getElem_mapIdx, List.getElem_range, queuedOf]
    exact toNat_ofNat9 (by omega)
  refine
    { leading := List.prefix_rfl
      inner := fun i n hi hn => absurd (List.getElem?_eq_some_iff.mp hn).1 (by omega)
      size := by rw [hp.length_eq, List.length_mapIdx]; omega
      entries := fun e he => ?_
      owned := ?_
      smaller := fun i n hn hf => ?_
      sums := fun i n hn hf => ?_
      total := ?_
      walks := ⟨leaves.mapIdx fun j n => (queuedOf n j, [{ sym := n.sym, bits := [] }]), ?_, ?_, ?_⟩ }
  · obtain ⟨j, hj, rfl⟩ := mem_queueOf he
    refine ⟨leaves[j], ?_, rfl⟩
    simp only [queuedOf, Nat.zero_add]
    rw [toNat_ofNat9 (by omega), List.getElem?_eq_getElem hj]
  · rw [childIndices_leaves hl, List.append_nil, ← hidx]
    exact hp.map _
  · rw [hl n (List.mem_of_getElem? hn)] at hf
    simp at hf
  · rw [hl n (List.mem_of_getElem? hn)] at hf
    simp at hf
  · rw [(hp.map _).sum_eq]
    congr 1
    exact List.ext_getElem (by simp) fun i h1 h2 => by simp [queuedOf]
  · refine List.Perm.trans ?_ hp.symm
    rw [show (leaves.mapIdx fun j n => (queuedOf n j, [({ sym := n.sym, bits := [] } : RevEntry)])).map
        Prod.fst = leaves.mapIdx fun j n => queuedOf n j from
      List.ext_getElem (by simp) fun i _ _ => by simp]
  · intro pr hpr
    obtain ⟨j, hj, rfl⟩ := List.mem_mapIdx.mp hpr
    refine walk_leaf ?_ (hl _ (List.getElem_mem hj)) _ _
    simp only [queuedOf]
    rw [toNat_ofNat9 (by omega), List.getElem?_eq_getElem hj]
  · rw [flatMap_mapIdx_singleton _ _ fun _ _ => rfl]

/-- One merge keeps the invariant. -/
theorem forest_merge {leaves nodes : List Node} {a b : Queued} {q : List Queued}
    (F : Forest leaves nodes (a :: b :: q)) (hk : leaves.length ≤ 256)
    (ht : (leaves.map fun n => n.freq.toNat).sum < 2 ^ 32) :
    Forest leaves (nodes ++ [mergedNode a b])
      (enqueue (queuedOf (mergedNode a b) nodes.length) q) := by
  have hsize := F.size
  simp only [List.length_cons] at hsize
  have hN : nodes.length < 511 := by omega
  have hidx := toNat_ofNat9 (n := nodes.length) (by omega)
  obtain ⟨na, hna, hfa⟩ := F.entries a (by simp)
  obtain ⟨nb, hnb, hfb⟩ := F.entries b (by simp)
  have hal : a.idx.toNat < nodes.length := (List.getElem?_eq_some_iff.mp hna).1
  have hbl : b.idx.toNat < nodes.length := (List.getElem?_eq_some_iff.mp hnb).1
  have htot := F.total
  simp only [List.map_cons, List.sum_cons] at htot
  have hsum : (a.freq + b.freq).toNat = a.freq.toNat + b.freq.toNat := by
    rw [BitVec.toNat_add, Nat.mod_eq_of_lt (by omega)]
  have hp := enqueue_perm (queuedOf (mergedNode a b) nodes.length) q
  have old : ∀ {i : Nat} {n : Node}, nodes[i]? = some n → (nodes ++ [mergedNode a b])[i]? = some n := by
    intro i n h
    rw [List.getElem?_append_left (List.getElem?_eq_some_iff.mp h).1, h]
  have new : (nodes ++ [mergedNode a b])[nodes.length]? = some (mergedNode a b) := by simp
  have split : ∀ {i : Nat} {n : Node}, (nodes ++ [mergedNode a b])[i]? = some n →
      nodes[i]? = some n ∨ (i = nodes.length ∧ n = mergedNode a b) := by
    intro i n h
    rcases Nat.lt_trichotomy i nodes.length with hi | rfl | hi
    · rw [List.getElem?_append_left hi] at h
      exact .inl h
    · rw [new] at h
      exact .inr ⟨rfl, (Option.some.inj h).symm⟩
    · rw [List.getElem?_eq_none (by simp; omega)] at h
      simp at h
  refine
    { leading := F.leading.trans (List.prefix_append _ _)
      inner := fun i n hi hn => ?_
      size := by rw [hp.length_eq]; simp only [List.length_append, List.length_cons, List.length_nil]; omega
      entries := fun e he => ?_
      owned := ?_
      smaller := fun i n hn hf => ?_
      sums := fun i n hn hf => ?_
      total := ?_
      walks := ?_ }
  · rcases split hn with hn | ⟨_, rfl⟩
    · exact F.inner i n hi hn
    · rfl
  · rcases List.mem_cons.mp (hp.mem_iff.mp he) with rfl | he
    · exact ⟨mergedNode a b, by simp only [queuedOf, hidx, new], rfl⟩
    · obtain ⟨n, hn, hf⟩ := F.entries e (by simp [he])
      exact ⟨n, old hn, hf⟩
  · rw [childIndices_append]
    have ho := F.owned
    simp only [List.map_cons, List.cons_append] at ho
    rw [List.length_append, List.length_singleton, List.range_succ]
    refine ((hp.map _).append_right _).trans ?_
    simp only [List.map_cons, queuedOf, hidx, List.cons_append]
    refine List.Perm.trans ?_ (List.perm_append_singleton _ _).symm
    refine List.Perm.cons _ (List.Perm.trans ?_ ho)
    simp only [childIndices, mergedNode, List.flatMap_cons, List.flatMap_nil, Bool.false_eq_true, if_false,
      List.append_nil]
    rw [← List.append_assoc]
    exact List.perm_append_comm (l₂ := [a.idx.toNat, b.idx.toNat])
  · rcases split hn with hn | ⟨rfl, rfl⟩
    · exact F.smaller i n hn hf
    · exact ⟨hal, hbl⟩
  · rcases split hn with hn | ⟨rfl, rfl⟩
    · obtain ⟨l, r, hl, hr, hs⟩ := F.sums i n hn hf
      exact ⟨l, r, old hl, old hr, hs⟩
    · exact ⟨na, nb, old hna, old hnb, by rw [hfa, hfb]; exact hsum⟩
  · rw [(hp.map _).sum_eq, List.map_cons, List.sum_cons, ← F.total]
    simp only [List.map_cons, List.sum_cons, queuedOf, mergedNode, hsum]
    omega
  · obtain ⟨prs, hperm, hw, hs⟩ := F.walks
    have ha : a ∈ prs.map Prod.fst := hperm.mem_iff.mpr (by simp)
    obtain ⟨⟨a', la⟩, hla, rfl⟩ := List.mem_map.mp ha
    obtain ⟨prs1, h1⟩ : ∃ prs1, prs.Perm ((a', la) :: prs1) := ⟨_, List.perm_cons_erase hla⟩
    have hperm1 : (prs1.map Prod.fst).Perm (b :: q) :=
      List.Perm.cons_inv (a := a') (((h1.map Prod.fst).symm.trans hperm))
    have hb : b ∈ prs1.map Prod.fst := hperm1.mem_iff.mpr (by simp)
    obtain ⟨⟨b', lb⟩, hlb, rfl⟩ := List.mem_map.mp hb
    obtain ⟨prs2, h2⟩ : ∃ prs2, prs1.Perm ((b', lb) :: prs2) := ⟨_, List.perm_cons_erase hlb⟩
    have hperm2 : (prs2.map Prod.fst).Perm q :=
      List.Perm.cons_inv (a := b') (((h2.map Prod.fst).symm.trans hperm1))
    have hall : prs.Perm ((a', la) :: (b', lb) :: prs2) := h1.trans (h2.cons _)
    have hwa := hw (a', la) (hall.mem_iff.mpr (by simp))
    have hwb := hw (b', lb) (hall.mem_iff.mpr (by simp))
    simp only at hal hbl hwa hwb
    have hmono : ∀ (i : Nat) (n : Node), nodes[i]? = some n → (nodes ++ [mergedNode a' b'])[i]? = some n := fun _ _ => old
    refine ⟨(queuedOf (mergedNode a' b') nodes.length,
        (la.map fun e => { e with bits := [false] ++ e.bits }) ++
          lb.map fun e => { e with bits := [true] ++ e.bits }) :: prs2, ?_, ?_, ?_⟩
    · exact (hperm2.cons _).trans hp.symm
    · intro pr hpr
      rcases List.mem_cons.mp hpr with rfl | hpr
      · simp only [queuedOf, hidx]
        refine walk_inner (f := nodes.length) (n := mergedNode a' b') (by simp only [hidx, new]) rfl ?_ ?_
        · have := walk_path (q := [false]) hwa
          exact walk_mono (f := a'.idx.toNat + 1) (at' := fun i => nodes[i]?) hmono (by omega)
            (by simpa [mergedNode] using this)
        · have := walk_path (q := [true]) hwb
          exact walk_mono (f := b'.idx.toNat + 1) (at' := fun i => nodes[i]?) hmono (by omega)
            (by simpa [mergedNode] using this)
      · exact walk_mono (at' := fun i => nodes[i]?) hmono (Nat.le_refl _) (hw pr (hall.mem_iff.mpr (by simp [hpr])))
    · refine List.Perm.trans ?_ hs
      refine List.Perm.trans ?_ (hall.symm.flatMap_right _)
      simp [Function.comp_def]

/-- The loop ends in the invariant with at most one entry in the queue, none only if it began so. -/
theorem forest_mergeLoop {leaves nodes : List Node} {q : List Queued} (F : Forest leaves nodes q)
    (hk : leaves.length ≤ 256) (ht : (leaves.map fun n => n.freq.toNat).sum < 2 ^ 32) {fuel : Nat}
    (hf : q.length ≤ fuel) :
    ∃ q', Forest leaves (mergeLoop fuel nodes q) q' ∧ q'.length ≤ 1 ∧ (q ≠ [] → q' ≠ []) := by
  induction fuel generalizing nodes q with
  | zero =>
    obtain rfl : q = [] := List.eq_nil_of_length_eq_zero (by omega)
    exact ⟨[], by simpa [mergeLoop] using F, by simp, id⟩
  | succ fuel ih =>
    match q, F, hf with
    | [], F, _ => exact ⟨[], by simpa [mergeLoop] using F, by simp, id⟩
    | [a], F, _ => exact ⟨[a], by simpa [mergeLoop] using F, by simp, id⟩
    | a :: b :: q, F, hf =>
      have hlen := (enqueue_perm (queuedOf (mergedNode a b) nodes.length) q).length_eq
      simp only [List.length_cons] at hf hlen
      obtain ⟨q', hq', h1, h2⟩ := ih (forest_merge F hk ht) (by omega)
      refine ⟨q', by simpa [mergeLoop] using hq', h1, fun _ => h2 fun h0 => ?_⟩
      rw [h0] at hlen
      simp at hlen

/-- What BUILD makes of a FrequencyTable whose counts add up below 2^32. -/
theorem forest_buildTree {freq : Cells Count} (ht : totalCount freq < 2 ^ 32) :
    ∃ q : List Queued, Forest (leafNodes freq) (buildTree freq) q ∧ q.length ≤ 1 ∧
      (keyCount freq ≠ 0 → q.length = 1) := by
  have hk : (leafNodes freq).length ≤ 256 := leafNodes_length freq ▸ keyCount_le freq
  have F := forest_start (fun n hn => (mem_leafNodes hn).1) hk
  have hl : (queueOf (leafNodes freq) 0).length = (leafNodes freq).length := by
    rw [(queueOf_perm _ _).length_eq, List.length_mapIdx]
  obtain ⟨q, hq, h1, h2⟩ := forest_mergeLoop F hk (by rw [sum_leafNodes]; exact ht)
    (fuel := (leafNodes freq).length) (by omega)
  refine ⟨q, hq, h1, fun h0 => ?_⟩
  have : q ≠ [] := h2 fun hn => h0 (by rw [hn, leafNodes_length] at hl; exact hl.symm)
  have := List.length_pos_of_ne_nil this
  omega

theorem buildTree_length {freq : Cells Count} (ht : totalCount freq < 2 ^ 32) :
    (buildTree freq).length = 2 * keyCount freq - 1 := by
  obtain ⟨q, F, h1, h2⟩ := forest_buildTree ht
  have hs := F.size
  rw [leafNodes_length] at hs
  by_cases h0 : keyCount freq = 0
  · omega
  · have := h2 h0
    omega

/-- The entries below NDIST are the leaves. -/
theorem Forest.leaf_at {leaves nodes : List Node} {q : List Queued} (F : Forest leaves nodes q) {i : Nat}
    (hi : i < leaves.length) : nodes[i]? = leaves[i]? := by
  obtain ⟨c, rfl⟩ := F.leading
  rw [List.getElem?_append_left hi]

/-! ### Agreement with an unordered queue (R123) -/

theorem nodeFreq_eq {nodes : List Node} {e : Queued} {n : Node} (hn : nodes[e.idx.toNat]? = some n)
    (hf : n.freq = e.freq) : nodeFreq nodes e.idx.toNat = e.freq := by
  simp [nodeFreq, hn, hf]

theorem before_comesBefore {nodes : List Node} {a b : Queued}
    (ha : nodeFreq nodes a.idx.toNat = a.freq) (hb : nodeFreq nodes b.idx.toNat = b.freq)
    (h : a.before b = true) : comesBefore nodes a.idx.toNat b.idx.toNat := by
  simpa [Queued.before, comesBefore, ha, hb] using h

theorem queue_idx_nodup {leaves nodes : List Node} {q : List Queued} (F : Forest leaves nodes q) :
    (q.map (·.idx.toNat)).Nodup :=
  (List.nodup_append.mp (F.owned.nodup_iff.mpr List.nodup_range)).1

/-- The head of a sorted queue is the least index of the set the queue stands for. -/
theorem isLeast_head {nodes : List Node} {e : Queued} {q : List Queued}
    (hent : ∀ x ∈ e :: q, nodeFreq nodes x.idx.toNat = x.freq)
    (hs : (e :: q).Pairwise fun a b => a.before b = true) :
    IsLeast nodes ((e :: q).map (·.idx.toNat)).toFinset e.idx.toNat := by
  refine ⟨by simp, fun j hj hne => ?_⟩
  obtain ⟨x, hx, rfl⟩ := List.mem_map.mp (List.mem_toFinset.mp hj)
  rcases List.mem_cons.mp hx with rfl | hx'
  · exact absurd rfl hne
  · exact before_comesBefore (hent e (by simp)) (hent x hx) ((List.pairwise_cons.mp hs).1 x hx')

/-- The merge loop with its sorted queue is a merge run with an unordered one. -/
theorem mergeRun_mergeLoop {leaves nodes : List Node} {q : List Queued} (F : Forest leaves nodes q)
    (hs : q.Pairwise fun a b => a.before b = true) (hk : leaves.length ≤ 256)
    (ht : (leaves.map fun n => n.freq.toNat).sum < 2 ^ 32) {fuel : Nat} (hf : q.length ≤ fuel) :
    MergeRun nodes (q.map (·.idx.toNat)).toFinset (mergeLoop fuel nodes q) := by
  induction fuel generalizing nodes q with
  | zero =>
    obtain rfl : q = [] := List.eq_nil_of_length_eq_zero (by omega)
    exact .done (by simp)
  | succ fuel ih =>
    match q, F, hs, hf with
    | [], _, _, _ => exact .done (by simp)
    | [a], _, _, _ => exact .done (by simp)
    | a :: b :: q, F, hs, hf =>
      have hent : ∀ x ∈ a :: b :: q, nodeFreq nodes x.idx.toNat = x.freq := fun x hx =>
        let ⟨_, hn, hf⟩ := F.entries x hx
        nodeFreq_eq hn hf
      have hnd := queue_idx_nodup F
      simp only [List.map_cons, List.nodup_cons, List.mem_cons, not_or] at hnd
      obtain ⟨⟨hab, haq⟩, hbq, _⟩ := hnd
      have hlt : ∀ x ∈ a :: b :: q, x.idx.toNat < nodes.length := fun x hx =>
        let ⟨_, hn, _⟩ := F.entries x hx
        (List.getElem?_eq_some_iff.mp hn).1
      have hN : nodes.length < 512 := by
        have := F.size
        simp only [List.length_cons] at this
        omega
      have hp := enqueue_perm (queuedOf (mergedNode a b) nodes.length) q
      have hea : (((a :: b :: q).map (·.idx.toNat)).toFinset).erase a.idx.toNat =
          ((b :: q).map (·.idx.toNat)).toFinset := by
        rw [List.map_cons, List.toFinset_cons]
        exact Finset.erase_insert (by simpa using ⟨hab, by simpa using haq⟩)
      have heb : (((b :: q).map (·.idx.toNat)).toFinset).erase b.idx.toNat =
          (q.map (·.idx.toNat)).toFinset := by
        rw [List.map_cons, List.toFinset_cons]
        exact Finset.erase_insert (by simpa using hbq)
      have hs' := List.pairwise_cons.mp hs
      refine .merge (a := a.idx.toNat) (b := b.idx.toNat) (isLeast_head hent hs) ?_ ?_
      · rw [hea]
        exact isLeast_head (fun x hx => hent x (List.mem_cons_of_mem _ hx)) hs'.2
      · rw [hea, heb]
        have hnew : Node.mk false 0 (nodeFreq nodes a.idx.toNat + nodeFreq nodes b.idx.toNat)
            (BitVec.ofNat 9 a.idx.toNat) (BitVec.ofNat 9 b.idx.toNat) = mergedNode a b := by
          rw [hent a (by simp), hent b (by simp)]
          simp [mergedNode]
        have hQ : insert nodes.length (q.map (·.idx.toNat)).toFinset =
            ((enqueue (queuedOf (mergedNode a b) nodes.length) q).map (·.idx.toNat)).toFinset := by
          rw [List.toFinset_eq_of_perm _ _ (hp.map _), List.map_cons, List.toFinset_cons]
          simp only [queuedOf, toNat_ofNat9 hN]
        rw [hnew, hQ]
        refine ih (forest_merge F hk ht) ?_ ?_
        · refine enqueue_sorted (List.pairwise_cons.mp hs'.2).2 fun x hx heq => ?_
          have h1 := hlt x (by simp [hx])
          have h2 := congrArg BitVec.toNat heq
          simp only [queuedOf, toNat_ofNat9 hN] at h2
          omega
        · rw [hp.length_eq]
          simp only [List.length_cons] at hf ⊢
          omega

end Sys2Proof.Machine
end

