-- ==== Sys2Proof/Laws/Codes.lean ====
section
/-! SUPPORT. What GENCODE makes of a built tree (42_gencode.md R138 to R143), what the CODE table answers, and
how a payload is made (43_pack.md R153) and read (44_unpack.md R178, R179). -/

namespace Sys2Proof.Machine

/-! ### CODE as the assignments of R138 -/

theorem codeAt_foldl {l : List RevEntry} (hl : (l.map (·.sym)).Nodup) (c : Cells Bits) (s : Symbol)
    (p : Bits) :
    codeAt (l.foldl (fun c e => cellPut c e.sym.toNat e.bits) c) s = some p ↔
      { sym := s, bits := p } ∈ l ∨ (s ∉ l.map (·.sym) ∧ codeAt c s = some p) := by
  induction l generalizing c with
  | nil => simp
  | cons e l ih =>
    obtain ⟨h1, h2⟩ := List.nodup_cons.mp hl
    rw [List.foldl_cons, ih h2]
    simp only [codeAt, cellGet_cellPut, BitVec.toNat_inj, List.mem_cons, List.map_cons, not_or]
    by_cases hs : s = e.sym
    · subst hs
      have hnot : ({ sym := e.sym, bits := p } : RevEntry) ∉ l := fun hm =>
        h1 (List.mem_map.mpr ⟨_, hm, rfl⟩)
      simp only [if_pos, Option.some.injEq, hnot, false_or, or_false, not_true, false_and]
      constructor
      · rintro ⟨_, rfl⟩
        rfl
      · intro h
        exact ⟨h1, congrArg RevEntry.bits h.symm⟩
    · simp only [if_neg hs]
      constructor
      · rintro (h | ⟨h, h'⟩)
        · exact .inl (.inr h)
        · exact .inr ⟨⟨hs, h⟩, h'⟩
      · rintro ((h | h) | ⟨⟨_, h⟩, h'⟩)
        · exact absurd (congrArg RevEntry.sym h) hs
        · exact .inl h
        · exact .inr ⟨h, h'⟩

/-- CODE and REV are inverse to each other when no symbol is assigned twice (R41, R138). -/
theorem codeAt_codeTable {l : List RevEntry} (hl : (l.map (·.sym)).Nodup) (s : Symbol) (p : Bits) :
    codeAt (codeTable l) s = some p ↔ { sym := s, bits := p } ∈ l := by
  rw [codeTable, codeAt_foldl hl]
  simp [codeAt, cellGet]

/-! ### The code of a built tree -/

/-- What the assignments of GENCODE look like for a FrequencyTable. -/
structure CodeListOk (freq : Cells Count) (l : List RevEntry) : Prop where
  /-- One entry for each leaf (R138). -/
  symbols : (l.map (·.sym)).Perm ((leafNodes freq).map (·.sym))
  /-- In ascending lexicographic order (R139). -/
  sorted : l.Pairwise fun e g => lexBefore e.bits g.bits
  nonEmpty : ∀ e ∈ l, e.bits ≠ []
  /-- R143 (b), the lengths. -/
  depth : 2 ≤ keyCount freq → ∀ e ∈ l, e.bits.length + 1 ≤ keyCount freq
  /-- R143 (b), completeness. -/
  kraft : 2 ≤ keyCount freq → (l.map fun e => (1 / 2 : ℚ) ^ e.bits.length).sum = 1
  /-- R140. -/
  single : keyCount freq = 1 → ∀ e ∈ l, e.bits = [false]

theorem rootOf_toNat {n : Nat} (h0 : n ≠ 0) (h : n < 512) : (rootOf n).toNat = n - 1 := by
  rw [rootOf, if_neg h0, toNat_ofNat9 (by omega)]

theorem rootOf_ne_noNode {n : Nat} (h0 : n ≠ 0) (h : n < 512) : rootOf n ≠ Config.noNode := by
  intro he
  have := congrArg BitVec.toNat he
  rw [rootOf_toNat h0 h] at this
  have h1 : (Config.noNode).toNat = 511 := rfl
  omega

/-- The index left in the queue at the end is the root, the last node made (R126). -/
theorem last_is_root {leaves nodes : List Node} {e : Queued} (F : Forest leaves nodes [e]) :
    e.idx.toNat + 1 = nodes.length := by
  have ho := F.owned
  simp only [List.map_cons, List.map_nil, List.cons_append, List.nil_append] at ho
  have hmem : ∀ j, j ∈ List.range nodes.length ↔ j = e.idx.toNat ∨ j ∈ childIndices nodes := fun j => by
    rw [← ho.mem_iff, List.mem_cons]
  have he : e.idx.toNat < nodes.length := by
    have := (hmem e.idx.toNat).mpr (.inl rfl)
    simpa using this
  by_contra hne
  have hlast : nodes.length - 1 ∈ childIndices nodes := by
    rcases (hmem (nodes.length - 1)).mp (by simp; omega) with h | h
    · omega
    · exact h
  obtain ⟨n, hn, hc⟩ := List.mem_flatMap.mp hlast
  obtain ⟨i, hi, rfl⟩ := List.mem_iff_getElem.mp hn
  have hs := F.smaller i nodes[i] (List.getElem?_eq_getElem hi)
  split at hc
  · simp at hc
  · next hl =>
    have := hs (by simpa using hl)
    simp only [List.mem_cons, List.not_mem_nil, or_false] at hc
    omega

/-- GENCODE succeeds on every built tree, with these assignments. -/
theorem codeList_buildTree {freq : Cells Count} (ht : totalCount freq < 2 ^ 32) :
    ∃ l, codeList (fun i => (buildTree freq)[i]?) (buildTree freq).length
        (rootOf (buildTree freq).length) = some l ∧ CodeListOk freq l := by
  obtain ⟨q, F, hq, hq1⟩ := forest_buildTree ht
  have hk : (leafNodes freq).length ≤ 256 := leafNodes_length freq ▸ keyCount_le freq
  have hlen := buildTree_length ht
  by_cases h0 : keyCount freq = 0
  · have hb : (buildTree freq).length = 0 := by omega
    have hl : leafNodes freq = [] := List.eq_nil_of_length_eq_zero (by rw [leafNodes_length, h0])
    refine ⟨[], by rw [hb]; simp [codeList, rootOf], ?_⟩
    exact
      { symbols := by rw [hl]; exact .refl _
        sorted := .nil
        nonEmpty := by simp
        depth := by omega
        kraft := by omega
        single := by simp }
  · obtain ⟨e, rfl⟩ := List.length_eq_one_iff.mp (hq1 h0)
    have hr := last_is_root F
    have hlt : (buildTree freq).length < 512 := by
      have := keyCount_le freq
      omega
    have hidx : rootOf (buildTree freq).length = e.idx := by
      refine BitVec.eq_of_toNat_eq ?_
      rw [rootOf_toNat (by omega) hlt]
      omega
    obtain ⟨prs, hperm, hw, hs⟩ := F.walks
    obtain ⟨⟨e', l⟩, hprs, rfl⟩ : ∃ pr, prs = [pr] ∧ pr.1 = e := by
      have hlen := hperm.length_eq
      simp only [List.length_map, List.length_singleton] at hlen
      obtain ⟨pr, rfl⟩ := List.length_eq_one_iff.mp hlen
      exact ⟨pr, rfl, by simpa using hperm⟩
    subst hprs
    have hwl := hw _ (List.mem_singleton.mpr rfl)
    simp only [hr] at hwl
    simp only [List.flatMap_cons, List.flatMap_nil, List.append_nil] at hs
    have hll : l.length = keyCount freq := by
      have := hs.length_eq
      simpa [leafNodes_length] using this
    obtain ⟨f, n, hf, hn, hc⟩ := walk_cases hwl
    have hroot : rootOf (buildTree freq).length ≠ Config.noNode := rootOf_ne_noNode (by omega) hlt
    rcases hc with ⟨hleaf, rfl⟩ | ⟨hinner, a, b, ha, hb, rfl⟩
    · refine ⟨[{ sym := n.sym, bits := [false] }], ?_, ?_⟩
      · rw [hidx] at hroot ⊢
        simp only [codeList, if_neg hroot, hn, hleaf, if_true]
      · simp only [List.length_singleton] at hll
        exact
          { symbols := hs
            sorted := by simp
            nonEmpty := by simp
            depth := by omega
            kraft := by omega
            single := by simp }
    · refine ⟨a ++ b, ?_, ?_⟩
      · rw [hidx] at hroot ⊢
        simp only [codeList, if_neg hroot, hn, hinner, Bool.false_eq_true, if_false, hwl]
      · have hla := List.length_pos_of_ne_nil (walk_ne_nil ha)
        have hlb := List.length_pos_of_ne_nil (walk_ne_nil hb)
        rw [List.length_append] at hll
        refine
          { symbols := hs
            sorted := walk_sorted hwl
            nonEmpty := fun x hx => ?_
            depth := fun _ x hx => ?_
            kraft := fun _ => by simpa using walk_kraft hwl
            single := by omega }
        · rcases List.mem_append.mp hx with hx | hx
          · have := (walk_extends ha x hx).length_le
            exact List.ne_nil_of_length_pos (by simp at this; omega)
          · have := (walk_extends hb x hx).length_le
            exact List.ne_nil_of_length_pos (by simp at this; omega)
        · have := walk_depth hwl x hx
          simp only [List.length_nil, List.length_append] at this
          omega

namespace CodeListOk
variable {freq : Cells Count} {l : List RevEntry}

theorem symbols_nodup (h : CodeListOk freq l) : (l.map (·.sym)).Nodup := by
  refine h.symbols.nodup_iff.mpr ?_
  rw [leafNodes_symbols]
  exact (allSymbols_ascending.imp fun hlt he => by subst he; omega).filter _

theorem length_eq (h : CodeListOk freq l) : l.length = keyCount freq := by
  have := h.symbols.length_eq
  simpa [leafNodes_length] using this

/-- R143 (a): a symbol has a code exactly when its count is not 0. -/
theorem mem_symbols_iff (h : CodeListOk freq l) (s : Symbol) :
    s ∈ l.map (·.sym) ↔ 0 < (freqAt freq s).toNat := by
  rw [h.symbols.mem_iff, leafNodes_symbols, List.mem_filter]
  simp [mem_allSymbols]

/-- R42: an entry whose code begins the code of another is that entry. -/
theorem eq_of_isPrefix (h : CodeListOk freq l) {e f : RevEntry} (he : e ∈ l) (hf : f ∈ l)
    (hp : e.bits <+: f.bits) : e = f := by
  by_contra hne
  have hs := h.sorted
  have key : ∀ {l : List RevEntry}, (l.Pairwise fun e g => lexBefore e.bits g.bits) → e ∈ l → f ∈ l →
      lexBefore e.bits f.bits ∨ lexBefore f.bits e.bits := by
    intro l hs he hf
    induction l with
    | nil => simp at he
    | cons x l ih =>
      obtain ⟨hx, hs⟩ := List.pairwise_cons.mp hs
      rcases List.mem_cons.mp he with he' | he'
      · rcases List.mem_cons.mp hf with hf' | hf'
        · exact absurd (he'.trans hf'.symm) hne
        · exact .inl (he' ▸ hx f hf')
      · rcases List.mem_cons.mp hf with hf' | hf'
        · exact .inr (hf' ▸ hx e he')
        · exact ih hs he' hf'
  rcases key hs he hf with h | h
  · exact (lexBefore_not_isPrefix h).1 hp
  · exact (lexBefore_not_isPrefix h).2 hp

end CodeListOk

/-! ### Payloads -/

theorem payloadOf_nil (code : Cells Bits) : payloadOf code [] = some [] := rfl

theorem payloadOf_cons (code : Cells Bits) (t : Symbol) (ts : List Symbol) :
    payloadOf code (t :: ts) =
      (codeAt code t).bind fun b => (payloadOf code ts).map fun p => b ++ p := by
  simp only [payloadOf, List.mapM_cons]
  cases codeAt code t with
  | none => rfl
  | some b => cases List.mapM (codeAt code) ts <;> rfl

/-- PACK's step 1 gives the payload when every symbol has a code. -/
theorem encodeText_ok {code : Cells Bits} {text : List Symbol} {p : Bits}
    (h : payloadOf code text = some p) (i : Nat) : encodeText code i text = .ok p := by
  induction text generalizing i p with
  | nil =>
    rw [payloadOf_nil] at h
    rw [encodeText, Option.some.inj h]
  | cons t ts ih =>
    rw [payloadOf_cons] at h
    cases hc : codeAt code t with
    | none => simp [hc] at h
    | some b =>
      cases hp : payloadOf code ts with
      | none => simp [hc, hp] at h
      | some p' =>
        simp only [hc, hp, Option.bind_some, Option.map_some, Option.some.injEq] at h
        simp only [encodeText, hc, ih hp, h]

/-- PACK's step 1 raises NOCODE with the position of the first symbol that has no code. -/
theorem encodeText_error {code : Cells Bits} {u v : List Symbol} {x : Symbol}
    (hu : ∀ s ∈ u, (codeAt code s).isSome) (hx : codeAt code x = none) (i : Nat) :
    encodeText code i (u ++ x :: v) = .error { cause := .noCode, info := BitVec.ofNat 32 (i + u.length) } := by
  induction u generalizing i with
  | nil => simp [encodeText, hx]
  | cons t u ih =>
    obtain ⟨b, hb⟩ := Option.isSome_iff_exists.mp (hu t (by simp))
    rw [List.cons_append, encodeText, hb]
    simp only
    rw [ih (fun s hs => hu s (by simp [hs]))]
    simp only [List.length_cons]
    congr 3
    omega

theorem payloadOf_isSome {code : Cells Bits} {text : List Symbol}
    (h : ∀ s ∈ text, (codeAt code s).isSome) : ∃ p, payloadOf code text = some p := by
  induction text with
  | nil => exact ⟨[], rfl⟩
  | cons t ts ih =>
    obtain ⟨p, hp⟩ := ih fun s hs => h s (by simp [hs])
    obtain ⟨b, hb⟩ := Option.isSome_iff_exists.mp (h t (by simp))
    exact ⟨b ++ p, by rw [payloadOf_cons, hb, hp]; rfl⟩

/-- Either every symbol of a text has a code or there is a first that has none. -/
theorem payload_or_first (code : Cells Bits) (text : List Symbol) :
    (∃ p, payloadOf code text = some p) ∨
      ∃ u x v, text = u ++ x :: v ∧ (∀ s ∈ u, (codeAt code s).isSome) ∧ codeAt code x = none := by
  induction text with
  | nil => exact .inl ⟨[], rfl⟩
  | cons t ts ih =>
    cases hc : codeAt code t with
    | none => exact .inr ⟨[], t, ts, rfl, by simp, hc⟩
    | some b =>
      rcases ih with ⟨p, hp⟩ | ⟨u, x, v, rfl, hu, hx⟩
      · exact .inl ⟨b ++ p, by rw [payloadOf_cons, hc, hp]; rfl⟩
      · refine .inr ⟨t :: u, x, v, rfl, fun s hs => ?_, hx⟩
        rcases List.mem_cons.mp hs with rfl | hs
        · simp [hc]
        · exact hu s hs

/-- No code is longer than `m` bits: the payload has at most `m` bits for each symbol (R199). -/
theorem payloadOf_length_le {code : Cells Bits} {m : Nat} (hm : ∀ s b, codeAt code s = some b → b.length ≤ m)
    {text : List Symbol} {p : Bits} (h : payloadOf code text = some p) : p.length ≤ text.length * m := by
  induction text generalizing p with
  | nil =>
    rw [payloadOf_nil] at h
    simp [← Option.some.inj h]
  | cons t ts ih =>
    rw [payloadOf_cons] at h
    cases hc : codeAt code t with
    | none => simp [hc] at h
    | some b =>
      cases hp : payloadOf code ts with
      | none => simp [hc, hp] at h
      | some p' =>
        simp only [hc, hp, Option.bind_some, Option.map_some, Option.some.injEq] at h
        rw [← h, List.length_append, List.length_cons, Nat.succ_mul]
        have := ih hp
        have := hm t b hc
        omega

/-- The length of a payload is the sum of the lengths of the codes (R156). -/
theorem payloadOf_length {code : Cells Bits} {text : List Symbol} {p : Bits}
    (h : payloadOf code text = some p) :
    p.length = (text.map fun x => ((codeAt code x).getD []).length).sum := by
  induction text generalizing p with
  | nil =>
    rw [payloadOf_nil] at h
    simp [← Option.some.inj h]
  | cons t ts ih =>
    rw [payloadOf_cons] at h
    cases hc : codeAt code t with
    | none => simp [hc] at h
    | some b =>
      cases hp : payloadOf code ts with
      | none => simp [hc, hp] at h
      | some p' =>
        simp only [hc, hp, Option.bind_some, Option.map_some, Option.some.injEq] at h
        rw [← h]
        simp [ih hp, hc]

/-- A sum over a text, symbol by symbol. -/
theorem sum_by_symbol (text : List Symbol) (f : Symbol → Nat) :
    (text.map f).sum = (allSymbols.map fun x => text.count x * f x).sum := by
  induction text with
  | nil => simp
  | cons b text ih =>
    have h1 : ∀ l : List Symbol, (l.map fun s => if b == s then f s else 0).sum = l.count b * f b := by
      intro l
      induction l with
      | nil => simp
      | cons a l ihl =>
        rw [List.map_cons, List.sum_cons, ihl, List.count_cons]
        by_cases hab : a = b
        · subst hab
          simp
          ring
        · simp [hab, Ne.symm hab]
    have h2 : ∀ x, (b :: text).count x * f x = text.count x * f x + if b == x then f x else 0 := by
      intro x
      rw [List.count_cons]
      split <;> ring
    simp only [h2, List.sum_map_add, h1, allSymbols_count, List.map_cons, List.sum_cons, ih]
    ring

/-- A payload under a code that REV inverts is a concatenation of REV's codes, in the text's order. -/
theorem payloadOf_entries {s : State} (h : CodesOk s) {text : List Symbol} {p : Bits}
    (hp : payloadOf s.code text = some p) :
    ∃ es : List RevEntry, (∀ e ∈ es, e ∈ s.revEntries) ∧ p = es.flatMap (·.bits) ∧
      es.map (·.sym) = text := by
  induction text generalizing p with
  | nil =>
    rw [payloadOf_nil] at hp
    exact ⟨[], by simp, by simp [← Option.some.inj hp], rfl⟩
  | cons t ts ih =>
    rw [payloadOf_cons] at hp
    cases hc : codeAt s.code t with
    | none => simp [hc] at hp
    | some b =>
      cases hq : payloadOf s.code ts with
      | none => simp [hc, hq] at hp
      | some p' =>
        simp only [hc, hq, Option.bind_some, Option.map_some, Option.some.injEq] at hp
        obtain ⟨es, h1, h2, h3⟩ := ih hq
        refine ⟨{ sym := t, bits := b } :: es, fun e he => ?_, by simp [← hp, h2], by simp [h3]⟩
        rcases List.mem_cons.mp he with rfl | he
        · exact (h.inverse _ _).mp hc
        · exact h1 e he

/-! ### Reading a payload -/

/-- No entry's code begins another's: what greedy decoding needs of REV (R41, R42). -/
def Distinguished (rev : List RevEntry) : Prop :=
  (∀ e ∈ rev, e.bits ≠ []) ∧ ∀ e ∈ rev, ∀ f ∈ rev, e.bits <+: f.bits → e = f

theorem revLookup_entry {rev : List RevEntry} (h : Distinguished rev) {e : RevEntry} (he : e ∈ rev) :
    revLookup rev e.bits = some e.sym := by
  unfold revLookup
  cases hf : rev.find? fun x => decide (x.bits = e.bits) with
  | none => simpa using List.find?_eq_none.mp hf e he
  | some f =>
    have hb : f.bits = e.bits := by simpa using List.find?_some hf
    have := h.2 f (List.mem_of_find?_eq_some hf) e he (hb ▸ List.prefix_rfl)
    simp [this]

theorem revLookup_none {rev : List RevEntry} {cand : Bits} (h : ∀ e ∈ rev, e.bits ≠ cand) :
    revLookup rev cand = none := by
  simp only [revLookup, Option.map_eq_none_iff, List.find?_eq_none, decide_eq_true_eq]
  exact h

theorem revLookup_some {rev : List RevEntry} {cand : Bits} {s : Symbol} (h : revLookup rev cand = some s) :
    { sym := s, bits := cand } ∈ rev := by
  simp only [revLookup, Option.map_eq_some_iff] at h
  obtain ⟨e, he, rfl⟩ := h
  have hb : e.bits = cand := by simpa using List.find?_some he
  rw [← hb]
  exact List.mem_of_find?_eq_some he

/-- The rest of a code is read up to its last bit, where its symbol is emitted. -/
theorem decodeBits_code {rev : List RevEntry} (h : Distinguished rev) {e : RevEntry} (he : e ∈ rev)
    {cand rest : Bits} (hb : e.bits = cand ++ rest) (hr : rest ≠ []) (tail : Bits) (k start : Nat) :
    decodeBits rev k start cand (rest ++ tail) =
      match decodeBits rev (k + rest.length) (k + rest.length) [] tail with
      | .error r => .error r
      | .ok out => .ok (e.sym :: out) := by
  induction rest generalizing cand k with
  | nil => exact absurd rfl hr
  | cons b rest ih =>
    rw [List.cons_append, decodeBits]
    by_cases h0 : rest = []
    · subst h0
      rw [← hb, revLookup_entry h he]
      rfl
    · have hnone : revLookup rev (cand ++ [b]) = none := by
        refine revLookup_none fun f hf hfb => ?_
        have hpre : f.bits <+: e.bits := ⟨rest, by rw [hfb, hb]; simp⟩
        have hfe := h.2 f hf e he hpre
        rw [hfe, hb] at hfb
        have := congrArg List.length hfb
        simp only [List.length_append, List.length_cons, List.length_nil] at this
        exact h0 (List.eq_nil_of_length_eq_zero (by omega))
      rw [hnone]
      simp only
      rw [ih (by rw [hb]; simp) h0]
      simp only [List.length_cons]
      rw [show k + 1 + rest.length = k + (rest.length + 1) by omega]

/-- A concatenation of codes is read back symbol by symbol (R183). -/
theorem decodeBits_codes {rev : List RevEntry} (h : Distinguished rev) {es : List RevEntry}
    (hes : ∀ e ∈ es, e ∈ rev) (tail : Bits) (k : Nat) :
    decodeBits rev k k [] ((es.flatMap (·.bits)) ++ tail) =
      match decodeBits rev (k + (es.flatMap (·.bits)).length) (k + (es.flatMap (·.bits)).length) [] tail with
      | .error r => .error r
      | .ok out => .ok (es.map (·.sym) ++ out) := by
  induction es generalizing k with
  | nil =>
    simp only [List.flatMap_nil, List.nil_append, List.length_nil, Nat.add_zero, List.map_nil]
    split <;> simp_all
  | cons e es ih =>
    have he := hes e (by simp)
    rw [List.flatMap_cons, List.append_assoc,
      decodeBits_code h he (cand := []) rfl (h.1 e he), ih fun x hx => hes x (by simp [hx])]
    rw [List.length_append, ← Nat.add_assoc]
    cases decodeBits rev (k + e.bits.length + (List.flatMap (·.bits) es).length)
      (k + e.bits.length + (List.flatMap (·.bits) es).length) [] tail <;> rfl

theorem distinguished_of_codesOk {s : State} (h : CodesOk s) : Distinguished s.revEntries := by
  refine ⟨h.nonEmpty, fun e he f hf hp => ?_⟩
  have hs : e.sym = f.sym := by
    by_contra hne
    exact h.prefixFree e he f hf hne hp
  have h1 := (h.inverse e.sym e.bits).mpr he
  have h2 := (h.inverse f.sym f.bits).mpr hf
  rw [hs, h2] at h1
  cases e
  cases f
  simp_all

/-- A payload that is a concatenation of codes is read to its end. -/
theorem decodeBits_all {s : State} (h : CodesOk s) {es : List RevEntry} (he : ∀ e ∈ es, e ∈ s.revEntries) :
    decodeBits s.revEntries 0 0 [] (es.flatMap (·.bits)) = .ok (es.map (·.sym)) := by
  have hd := decodeBits_codes (distinguished_of_codesOk h) he [] 0
  rw [List.append_nil] at hd
  rw [hd]
  simp [decodeBits]

/-- Codes are taken off the front of a payload until none begins what is left (R178, R179). -/
theorem codes_and_rest {s : State} (h : CodesOk s) (payload : Bits) :
    ∃ (es : List RevEntry) (tail : Bits), (∀ e ∈ es, e ∈ s.revEntries) ∧
      payload = es.flatMap (·.bits) ++ tail ∧ ∀ e ∈ s.revEntries, ¬ e.bits <+: tail := by
  induction hn : payload.length using Nat.strong_induction_on generalizing payload with
  | _ n ih =>
    by_cases hx : ∃ e ∈ s.revEntries, e.bits <+: payload
    · obtain ⟨e, he, rest, rfl⟩ := hx
      have hpos := List.length_pos_of_ne_nil (h.nonEmpty e he)
      rw [List.length_append] at hn
      obtain ⟨es, tail, hes, hrest, hno⟩ := ih rest.length (by omega) rest rfl
      exact ⟨e :: es, tail, List.forall_mem_cons.mpr ⟨he, hes⟩,
        by rw [List.flatMap_cons, List.append_assoc, ← hrest], hno⟩
    · exact ⟨[], payload, by simp, rfl, fun e he hp => hx ⟨e, he, hp⟩⟩

/-- Bits of which no beginning is a code are never matched (R179). -/
theorem decodeBits_unmatched {rev : List RevEntry} {cand rest : Bits} {k start : Nat} (hne : cand ++ rest ≠ [])
    (h : ∀ e ∈ rev, e.bits <+: cand ++ rest → e.bits.length ≤ cand.length) :
    decodeBits rev k start cand rest =
      .error { cause := .unterminated, info := BitVec.ofNat 32 start } := by
  induction rest generalizing cand k with
  | nil =>
    rw [List.append_nil] at hne
    rw [decodeBits, if_neg hne]
  | cons b rest ih =>
    have hassoc : cand ++ [b] ++ rest = cand ++ b :: rest := by simp
    have hnone : revLookup rev (cand ++ [b]) = none := by
      refine revLookup_none fun e he heb => ?_
      have := h e he ⟨rest, by rw [heb, hassoc]⟩
      rw [heb, List.length_append, List.length_singleton] at this
      omega
    rw [decodeBits, hnone]
    simp only
    refine ih (by rw [hassoc]; exact hne) fun e he hp => ?_
    rw [hassoc] at hp
    have := h e he hp
    rw [List.length_append]
    omega

end Sys2Proof.Machine
end

