-- ==== Sys2Proof/Laws/Decode.lean ====
section
/-! SUPPORT. The decoder inverted (30_encoding.md R86, R87) and what a word written to CMD can become
(45_control.md R192). -/

namespace Sys2Proof

theorem rsvField_eq_zero_iff (w : Word) : w.extractLsb' 8 24 = 0 ↔ w.toNat < 256 := by
  rw [BitVec.toNat_eq]
  simp [BitVec.extractLsb'_toNat]
  omega

theorem opField_toNat (w : Word) : (w.extractLsb' 0 8).toNat = w.toNat % 256 := by
  simp [BitVec.extractLsb'_toNat]

theorem commandOfOpcode_iff (n : Nat) (i : Instr) :
    commandOfOpcode n = some i ↔ n = (opcode i).toNat := by
  constructor
  · intro h
    unfold commandOfOpcode at h
    split at h
    all_goals first
      | (obtain rfl := Option.some.inj h; rfl)
      | simp at h
  · rintro rfl
    cases i <;> rfl

/-- A word is a command exactly when it is that command's word. -/
theorem decode_iff (w : Word) (i : Instr) : decode w = .command i ↔ w = encode i := by
  constructor
  · intro h
    unfold decode at h
    split at h
    · next hr =>
      split at h
      · next j hj =>
        obtain rfl := Decoded.command.inj h
        rw [commandOfOpcode_iff, opField, opField_toNat] at hj
        rw [rsvField, rsvField_eq_zero_iff] at hr
        refine BitVec.eq_of_toNat_eq ?_
        cases j <;> simp [encode, opcode] at * <;> omega
      · simp at h
    · simp at h
  · rintro rfl
    cases i <;> decide

theorem decode_illegal {w : Word} (h : ∀ i, w ≠ encode i) : ∃ why, decode w = .illegal why := by
  cases hd : decode w with
  | command i => exact absurd ((decode_iff w i).mp hd) (h i)
  | illegal why => exact ⟨why, rfl⟩

namespace Machine

/-- A word is run as a command only if it is that command's word. -/
theorem takeCommand_run {fault : Bool} {w : Word} {i : Instr} (h : takeCommand fault w = .run i) :
    w = encode i := by
  refine (decode_iff w i).mp ?_
  unfold takeCommand at h
  split at h
  all_goals first
    | (obtain rfl := Taken.run.inj h; assumption)
    | simp at h

/-- While FAULT is set only CLEAR and FACK are run (R191). -/
theorem takeCommand_fault {w : Word} {i : Instr} (h : takeCommand true w = .run i) :
    i = .clear ∨ i = .fack := by
  unfold takeCommand at h
  split at h <;> simp_all

theorem takeCommand_fault_not_illegal (w : Word) : takeCommand true w ≠ .illegal := by
  intro h
  unfold takeCommand at h
  split at h <;> simp_all

/-- A WR to CMD presents the word to the engine (R22, R190). -/
theorem step_wr_cmd {s : State} {w : Word} {rest : List HostEvent}
    (hp : s.pending = .tx (.wr 0 w) :: rest) : step s = command w (s.takeEvent rest) := by
  simp [step, hp, transact, isCommandRegister, regOfNumber]

end Machine

end Sys2Proof
end

