-- ==== Sys2Proof/Laws/Exec.lean ====
section
/-! SUPPORT. One inversion lemma per command and one for the step: everything a command can do when it
answers a next state, and when it does what. -/

namespace Sys2Proof.Machine

variable {s t : State}

theorem Cause.code_bounds (c : Cause) : 1 ≤ c.code.toNat ∧ c.code.toNat ≤ 7 := by
  cases c <;> decide

theorem raise_eq_faulted (s : State) (r : Raised) : s.raise r = s.faulted r.cause.code r.info := rfl

theorem finish_next {r : Except Raised State} (h : s.finish r = .next t) :
    r = .ok t ∨ ∃ e, r = .error e ∧ t = s.raise e := by
  cases r with
  | ok u => exact .inl (by simpa [State.finish] using h)
  | error e => exact .inr ⟨e, rfl, by simpa [State.finish] using h.symm⟩

theorem finish_completes (s : State) (r : Except Raised State) : ∃ t, s.finish r = .next t := by
  cases r <;> exact ⟨_, rfl⟩

/-! ### The tests -/

theorem needStage_true (i : Instr) : needStage true i = .ok () := rfl

theorem needStage_false (i : Instr) : needStage false i = .error { cause := .seq, info := encode i } := rfl

theorem checkSource_ok (h : s.src.toNat + s.slen.toNat ≤ s.params.memSize) : s.checkSource = .ok () := by
  simp [State.checkSource, State.srcOk, h]

theorem checkSource_error (h : ¬ s.src.toNat + s.slen.toNat ≤ s.params.memSize) :
    s.checkSource = .error { cause := .range, info := 0 } := by
  simp only [State.checkSource, State.srcOk, h, decide_false]
  rfl

theorem disjoint_iff : s.disjoint = true ↔
    s.slen = 0 ∨ s.dcap = 0 ∨ s.src.toNat + s.slen.toNat ≤ s.dst.toNat ∨
      s.dst.toNat + s.dcap.toNat ≤ s.src.toNat := by
  simp [State.disjoint, BitVec.toNat_eq, or_assoc]

theorem checkRegions_ok (h : RegionsOk s) : s.checkRegions = .ok () := by
  have hd := disjoint_iff.mpr h.apart
  simp [State.checkRegions, State.srcOk, State.dstOk, h.src, h.dst, hd]

/-- The range check passes only where the regions are in order. -/
theorem regionsOk_of_check (h : s.checkRegions = .ok ()) : RegionsOk s := by
  unfold State.checkRegions at h
  split at h
  · simp at h
  · split at h
    · simp at h
    · split at h
      · simp at h
      · next h1 h2 h3 =>
        exact
          { src := by simpa [State.srcOk] using h1
            dst := by simpa [State.dstOk] using h2
            apart := disjoint_iff.mp (by simpa using h3) }

theorem checkRegions_source (h : s.params.memSize < s.src.toNat + s.slen.toNat) :
    s.checkRegions = .error { cause := .range, info := 0 } := by
  simp [State.checkRegions, State.srcOk, Nat.not_le.mpr h]

theorem checkRegions_destination (hs : s.src.toNat + s.slen.toNat ≤ s.params.memSize)
    (h : s.params.memSize < s.dst.toNat + s.dcap.toNat) :
    s.checkRegions = .error { cause := .range, info := 1 } := by
  simp [State.checkRegions, State.srcOk, State.dstOk, hs, Nat.not_le.mpr h]

theorem checkRegions_overlap (hs : s.src.toNat + s.slen.toNat ≤ s.params.memSize)
    (hd : s.dst.toNat + s.dcap.toNat ≤ s.params.memSize)
    (h : ¬ (s.slen = 0 ∨ s.dcap = 0 ∨ s.src.toNat + s.slen.toNat ≤ s.dst.toNat ∨
      s.dst.toNat + s.dcap.toNat ≤ s.src.toNat)) :
    s.checkRegions = .error { cause := .range, info := 2 } := by
  have hj : s.disjoint = false := by
    rw [Bool.eq_false_iff, ne_eq, disjoint_iff]
    exact h
  simp [State.checkRegions, State.srcOk, State.dstOk, hs, hd, hj]

theorem checkRegions_cause {r : Raised} (h : s.checkRegions = .error r) : r.cause = .range := by
  unfold State.checkRegions at h
  split at h
  · exact (Except.error.inj h) ▸ rfl
  · split at h
    · exact (Except.error.inj h) ▸ rfl
    · split at h
      · exact (Except.error.inj h) ▸ rfl
      · simp at h

theorem encodeText_cause {code : Cells Bits} {text : List Symbol} {r : Raised}
    (h : encodeText code 0 text = .error r) : r.cause = .noCode := by
  rcases payload_or_first code text with ⟨p, hp⟩ | ⟨u, x, v, rfl, hu, hx⟩
  · rw [encodeText_ok hp] at h
    simp at h
  · rw [encodeText_error hu hx] at h
    exact (Except.error.inj h) ▸ rfl

theorem unframe_cause {bs : List Byte} {r : Raised} (h : unframe bs = .error r) : r.cause = .format := by
  unfold unframe at h
  split at h
  · exact (Except.error.inj h) ▸ rfl
  · simp only at h
    split at h
    · exact (Except.error.inj h) ▸ rfl
    · simp at h

theorem decodeBits_cause {rev : List RevEntry} {k start : Nat} {cand bits : Bits} {r : Raised}
    (h : decodeBits rev k start cand bits = .error r) : r.cause = .unterminated := by
  induction bits generalizing k start cand with
  | nil =>
    unfold decodeBits at h
    split at h
    · simp at h
    · exact (Except.error.inj h) ▸ rfl
  | cons b bits ih =>
    unfold decodeBits at h
    split at h
    · exact ih h
    · split at h
      · next h' => exact ih ((Except.error.inj h) ▸ h')
      · simp at h

/-! ### The commands -/

theorem execAnalyze_completes (h : s.src.toNat + s.slen.toNat ≤ s.params.memSize) :
    execAnalyze s = .next (s.commitAnalyze s.sourceBytes) := by
  simp only [execAnalyze, checkSource_ok h]
  rfl

theorem execBuild_completes (h : s.status.ftValid = true) : execBuild s = .next s.commitBuild := by
  simp only [execBuild, h, needStage_true]
  rfl

theorem execGencode_completes {l : List RevEntry} (h : s.status.treeValid = true)
    (hl : codeList s.nodeAt s.nnodes.toNat s.root = some l) :
    execGencode s = .next (s.commitGencode l) := by
  simp only [execGencode, h, needStage_true, hl]
  rfl

theorem execAnalyze_cases (h : execAnalyze s = .next t) :
    (s.src.toNat + s.slen.toNat ≤ s.params.memSize ∧ t = s.commitAnalyze s.sourceBytes) ∨
      (¬ s.src.toNat + s.slen.toNat ≤ s.params.memSize ∧
        t = s.raise { cause := .range, info := 0 }) := by
  by_cases hs : s.src.toNat + s.slen.toNat ≤ s.params.memSize
  · simp only [execAnalyze, checkSource_ok hs, State.finish] at h
    exact .inl ⟨hs, by simpa using h.symm⟩
  · simp only [execAnalyze, checkSource_error hs, State.finish] at h
    exact .inr ⟨hs, by simpa using h.symm⟩

theorem execBuild_cases (h : execBuild s = .next t) :
    (s.status.ftValid = true ∧ t = s.commitBuild) ∨
      (s.status.ftValid = false ∧ t = s.raise { cause := .seq, info := 3 }) := by
  cases hf : s.status.ftValid with
  | true =>
    simp only [execBuild, hf, needStage_true, State.finish] at h
    exact .inl ⟨rfl, by simpa using h.symm⟩
  | false =>
    simp only [execBuild, hf, needStage_false, State.finish] at h
    exact .inr ⟨rfl, (Host.Outcome.next.inj h).symm⟩

theorem execGencode_cases (h : execGencode s = .next t) :
    (s.status.treeValid = true ∧ ∃ l, codeList s.nodeAt s.nnodes.toNat s.root = some l ∧
        t = s.commitGencode l) ∨
      (s.status.treeValid = false ∧ t = s.raise { cause := .seq, info := 4 }) := by
  cases hf : s.status.treeValid with
  | true =>
    simp only [execGencode, hf, needStage_true] at h
    split at h
    · simp at h
    · next l hl => exact .inl ⟨rfl, l, hl, by simpa [State.finish] using h.symm⟩
  | false =>
    simp only [execGencode, hf, needStage_false, State.finish] at h
    exact .inr ⟨rfl, (Host.Outcome.next.inj h).symm⟩

/-- The state a completed PACK leaves. -/
def packed (s : State) (p : Bits) : State :=
  (s.writeBytes s.dst.toNat (artifact p)).setResult (artifact p).length p.length (paddingCount p.length)

/-- The state a completed UNPACK leaves. -/
def unpacked (s : State) (u : Unframed) (out : List Symbol) : State :=
  (s.writeBytes s.dst.toNat out).setResult out.length u.payload.length u.extra

/-- What a completed PACK wrote (R152, R157). -/
theorem packed_writes {p : Bits} (hm : s.params.memSize ≤ 2 ^ 28) (hr : RegionsOk s)
    (hl : (artifact p).length ≤ s.dcap.toNat) :
    (packed s p).rlen.toNat = p.length / 8 + 2 ∧ (packed s p).plen.toNat = p.length ∧
      (packed s p).extra.toNat = 8 - p.length % 8 ∧
      (packed s p).readBytes s.dst.toNat (p.length / 8 + 2) = artifact p ∧
      ∀ a, (a < s.dst.toNat ∨ s.dst.toNat + (p.length / 8 + 2) ≤ a) →
        (packed s p).readByte a = s.readByte a := by
  have hal := artifact_length p
  rw [hal] at hl
  have hd := hr.dst
  refine ⟨?_, ?_, ?_, ?_, fun a ha => ?_⟩
  · show (BitVec.ofNat 32 _).toNat = _
    rw [BitVec.toNat_ofNat, hal]
    omega
  · show (BitVec.ofNat 32 _).toNat = _
    rw [BitVec.toNat_ofNat]
    omega
  · show (BitVec.ofNat 8 _).toNat = _
    rw [BitVec.toNat_ofNat, paddingCount]
    omega
  · rw [← hal]
    exact readBytes_writeBytes_self s _ _
  · have h := readByte_writeBytes s s.dst.toNat (artifact p) a
    rw [dif_neg (by omega)] at h
    exact h

/-- What a completed UNPACK wrote (R172, R177). -/
theorem unpacked_writes {u : Unframed} {out : List Symbol} (hr : RegionsOk s)
    (hl : out.length ≤ s.dcap.toNat) (hu : u.payload.length < 2 ^ 32) :
    (unpacked s u out).rlen.toNat = out.length ∧ (unpacked s u out).plen.toNat = u.payload.length ∧
      (unpacked s u out).extra = BitVec.ofNat 8 u.extra ∧
      (unpacked s u out).readBytes s.dst.toNat out.length = out ∧
      ∀ a, (a < s.dst.toNat ∨ s.dst.toNat + out.length ≤ a) →
        (unpacked s u out).readByte a = s.readByte a := by
  have hd := hr.dst
  refine ⟨?_, ?_, rfl, readBytes_writeBytes_self s _ _, fun a ha => ?_⟩
  · show (BitVec.ofNat 32 _).toNat = _
    rw [BitVec.toNat_ofNat]
    omega
  · show (BitVec.ofNat 32 _).toNat = _
    rw [BitVec.toNat_ofNat]
    omega
  · have h := readByte_writeBytes s s.dst.toNat out a
    rw [dif_neg (by omega)] at h
    exact h

theorem execPack_eq (hc : s.status.ctValid = true) (hr : RegionsOk s) :
    execPack s = s.finish (match encodeText s.code 0 s.sourceBytes with
      | .error r => .error r
      | .ok p => s.commitPack p) := by
  simp only [execPack, hc, needStage_true, checkRegions_ok hr] <;> rfl

theorem execPack_completes (hc : s.status.ctValid = true) (hr : RegionsOk s) {p : Bits}
    (hp : payloadOf s.code s.sourceBytes = some p) (hl : (artifact p).length ≤ s.dcap.toNat) :
    execPack s = .next (packed s p) := by
  rw [execPack_eq hc hr, encodeText_ok hp]
  simp only [State.commitPack]
  rw [if_neg (by omega)]
  rfl

/-- All a PACK can do: complete, or raise one of its causes. -/
theorem execPack_cases (h : execPack s = .next t) :
    (s.status.ctValid = true ∧ RegionsOk s ∧ ∃ p, payloadOf s.code s.sourceBytes = some p ∧
        (artifact p).length ≤ s.dcap.toNat ∧ t = packed s p) ∨
      ∃ r : Raised, r.cause ∈ [Cause.seq, .range, .noCode, .dstCap] ∧ t = s.raise r := by
  rcases finish_next h with h | ⟨e, h, ht⟩
  · refine .inl ?_
    cases hf : s.status.ctValid with
    | false => simp [hf, needStage_false] at h
    | true =>
      simp only [hf, needStage_true] at h
      cases hr : s.checkRegions with
      | error r => simp [hr] at h
      | ok _ =>
        simp only [hr] at h
        have hro := regionsOk_of_check hr
        rcases payload_or_first s.code s.sourceBytes with ⟨p, hp⟩ | ⟨u, x, v, he, hu, hx⟩
        · rw [encodeText_ok hp] at h
          simp only [State.commitPack] at h
          split at h
          · simp at h
          · exact ⟨rfl, hro, p, hp, by omega, (Except.ok.inj h).symm⟩
        · rw [he, encodeText_error hu hx] at h
          simp at h
  · refine .inr ⟨e, ?_, ht⟩
    cases hf : s.status.ctValid with
    | false =>
      simp only [hf, needStage_false] at h
      simp [← Except.error.inj h]
    | true =>
      simp only [hf, needStage_true] at h
      cases hr : s.checkRegions with
      | error r =>
        simp only [hr] at h
        simp [← Except.error.inj h, checkRegions_cause hr]
      | ok _ =>
        simp only [hr] at h
        cases he : encodeText s.code 0 s.sourceBytes with
        | error r =>
          simp only [he] at h
          simp [← Except.error.inj h, encodeText_cause he]
        | ok p =>
          simp only [he, State.commitPack] at h
          split at h
          · simp [← Except.error.inj h]
          · simp at h

theorem execUnpack_eq (hc : s.status.ctValid = true) (hr : RegionsOk s) :
    execUnpack s = s.finish (match unframe s.sourceBytes with
      | .error r => .error r
      | .ok u =>
        match decodeBits s.revEntries 0 0 [] u.payload with
        | .error r => .error r
        | .ok out => s.commitUnpack u out) := by
  simp only [execUnpack, hc, needStage_true, checkRegions_ok hr] <;> rfl

theorem execUnpack_completes (hc : s.status.ctValid = true) (hr : RegionsOk s) {u : Unframed}
    {out : List Symbol} (hu : unframe s.sourceBytes = .ok u)
    (hd : decodeBits s.revEntries 0 0 [] u.payload = .ok out) (hl : out.length ≤ s.dcap.toNat) :
    execUnpack s = .next (unpacked s u out) := by
  rw [execUnpack_eq hc hr, hu]
  simp only [hd, State.commitUnpack]
  rw [if_neg (by omega)]
  rfl

/-- All an UNPACK can do: complete, or raise one of its causes. -/
theorem execUnpack_cases (h : execUnpack s = .next t) :
    (s.status.ctValid = true ∧ RegionsOk s ∧ ∃ u out, unframe s.sourceBytes = .ok u ∧
        decodeBits s.revEntries 0 0 [] u.payload = .ok out ∧ out.length ≤ s.dcap.toNat ∧
        t = unpacked s u out) ∨
      ∃ r : Raised, r.cause ∈ [Cause.seq, .range, .format, .unterminated, .dstCap] ∧ t = s.raise r := by
  rcases finish_next h with h | ⟨e, h, ht⟩
  · refine .inl ?_
    cases hf : s.status.ctValid with
    | false => simp [hf, needStage_false] at h
    | true =>
      simp only [hf, needStage_true] at h
      cases hr : s.checkRegions with
      | error r => simp [hr] at h
      | ok _ =>
        simp only [hr] at h
        have hro := regionsOk_of_check hr
        cases hu : unframe s.sourceBytes with
        | error r => simp [hu] at h
        | ok u =>
          simp only [hu] at h
          cases hd : decodeBits s.revEntries 0 0 [] u.payload with
          | error r => simp [hd] at h
          | ok out =>
            simp only [hd, State.commitUnpack] at h
            split at h
            · simp at h
            · exact ⟨rfl, hro, u, out, rfl, hd, by omega, (Except.ok.inj h).symm⟩
  · refine .inr ⟨e, ?_, ht⟩
    cases hf : s.status.ctValid with
    | false =>
      simp only [hf, needStage_false] at h
      simp [← Except.error.inj h]
    | true =>
      simp only [hf, needStage_true] at h
      cases hr : s.checkRegions with
      | error r =>
        simp only [hr] at h
        simp [← Except.error.inj h, checkRegions_cause hr]
      | ok _ =>
        simp only [hr] at h
        cases hu : unframe s.sourceBytes with
        | error r =>
          simp only [hu] at h
          simp [← Except.error.inj h, unframe_cause hu]
        | ok u =>
          simp only [hu] at h
          cases hd : decodeBits s.revEntries 0 0 [] u.payload with
          | error r =>
            simp only [hd] at h
            simp [← Except.error.inj h, decodeBits_cause hd]
          | ok out =>
            simp only [hd, State.commitUnpack] at h
            split at h
            · simp [← Except.error.inj h]
            · simp at h

/-! ### The step -/

/-- What a step can do: nothing, a reset, a command, or one of the host's other accesses. -/
theorem step_cases (h : step s = .next t) :
    (s.pending = [] ∧ t = s) ∨
    ∃ rest, let s' := s.takeEvent rest
      (s.pending = .reset :: rest ∧ t = s'.resetEvent) ∨
      (∃ w i, s.pending = .tx (.wr 0 w) :: rest ∧ takeCommand s.status.fault w = .run i ∧
        exec i s' = .next t) ∨
      (∃ w, s.pending = .tx (.wr 0 w) :: rest ∧ takeCommand s.status.fault w = .dropped ∧ t = s') ∨
      (∃ w, s.pending = .tx (.wr 0 w) :: rest ∧ takeCommand s.status.fault w = .illegal ∧
        t = s'.illegalCommand w) ∨
      (∃ r v, s.pending = .tx (.wr r v) :: rest ∧ t = s'.regWrite r v) ∨
      (∃ v, t = s'.returning v) ∨
      (∃ a v, s.pending = .tx (.mw a v) :: rest ∧ t = s'.hostMemWrite a v) := by
  unfold step at h
  split at h
  · exact .inl ⟨‹_›, by simpa using h.symm⟩
  · next rest hp => exact .inr ⟨rest, .inl ⟨hp, by simpa using h.symm⟩⟩
  · next tr rest hp =>
    refine .inr ⟨rest, .inr ?_⟩
    cases tr with
    | rd r => exact .inr (.inr (.inr (.inr (.inl ⟨_, by simpa [transact] using h.symm⟩))))
    | mr a => exact .inr (.inr (.inr (.inr (.inl ⟨_, by simpa [transact] using h.symm⟩))))
    | mw a v => exact .inr (.inr (.inr (.inr (.inr ⟨a, v, hp, by simpa [transact] using h.symm⟩))))
    | wr r v =>
      simp only [transact] at h
      split at h
      · next hr =>
        have hr0 : r = 0 := by
          simp only [isCommandRegister, decide_eq_true_eq] at hr
          unfold regOfNumber at hr
          split at hr
          · exact BitVec.eq_of_toNat_eq ‹_›
          all_goals simp at hr
        subst hr0
        simp only [command, takeEvent_status] at h
        split at h
        · next i hi => exact .inl ⟨v, i, hp, hi, h⟩
        · next hi => exact .inr (.inl ⟨v, hp, hi, by simpa using h.symm⟩)
        · next hi => exact .inr (.inr (.inl ⟨v, hp, hi, by simpa using h.symm⟩))
      · exact .inr (.inr (.inr (.inl ⟨r, v, hp, by simpa using h.symm⟩)))

/-- The only events that are not executed in one of these ways are commands that stop, and only GENCODE
can. -/
theorem exec_completes {i : Instr} (h : i = .gencode → s.status.treeValid = true →
    ∃ l, codeList s.nodeAt s.nnodes.toNat s.root = some l) : ∃ t, exec i s = .next t := by
  cases i with
  | gencode =>
    simp only [exec, execGencode]
    cases hf : s.status.treeValid with
    | false => exact ⟨_, rfl⟩
    | true =>
      obtain ⟨l, hl⟩ := h rfl hf
      rw [needStage_true, hl]
      exact ⟨_, rfl⟩
  | clear => exact ⟨_, rfl⟩
  | fack => exact ⟨_, rfl⟩
  | analyze => exact finish_completes _ _
  | build => exact finish_completes _ _
  | pack => exact finish_completes _ _
  | unpack => exact finish_completes _ _

end Sys2Proof.Machine
end

