-- ==== Sys2Proof/Laws/Inv.lean ====
section
/-! SUPPORT. What the invariant gives: bounds that keep every field from wrapping (10_state.md R36), the tree
of FREQ as the window and GENCODE see it, and the code of that tree. -/

namespace Sys2Proof.Machine

variable {s : State}

theorem Inv.memSize_le (h : Inv s) : s.params.memSize ≤ 2 ^ 28 := by
  have hp := h.control.params
  simp only [WellFormed.params, Bool.and_eq_true, decide_eq_true_eq] at hp
  exact hp.2

theorem Inv.total_lt (h : Inv s) : totalCount s.freq < 2 ^ 32 := by
  have hm := h.memSize_le
  have ht := h.tables.freqTotal
  omega

/-- NODE as a rule reads it is the tree of FREQ. -/
theorem Inv.nodeAt_eq (h : Inv s) (ht : s.status.treeValid = true) :
    s.nodeAt = fun i => (buildTree s.freq)[i]? := by
  obtain ⟨h1, h2, _⟩ := h.tables.tree ht
  funext i
  unfold State.nodeAt
  split
  · rw [h1]
  · rw [List.getElem?_eq_none]
    rw [← h1]
    omega

/-- GENCODE never stops in a run. -/
theorem Inv.codeList (h : Inv s) (ht : s.status.treeValid = true) :
    ∃ l, Machine.codeList s.nodeAt s.nnodes.toNat s.root = some l ∧ CodeListOk s.freq l := by
  obtain ⟨h1, h2, h3⟩ := h.tables.tree ht
  rw [h.nodeAt_eq ht, h2, h3, h1]
  exact codeList_buildTree h.total_lt

/-- REV holds what GENCODE makes of the tree of FREQ. -/
theorem Inv.rev_ok (h : Inv s) (hc : s.status.ctValid = true) : CodeListOk s.freq s.rev := by
  obtain ⟨l, h1, h2⟩ := h.codeList (h.control.codeStage hc)
  have h3 := (h.tables.codes hc).1
  rw [h1] at h3
  exact Option.some.inj h3 ▸ h2

theorem Inv.codeAt_iff (h : Inv s) (hc : s.status.ctValid = true) (x : Symbol) (p : Bits) :
    codeAt s.code x = some p ↔ { sym := x, bits := p } ∈ s.rev := by
  rw [(h.tables.codes hc).2]
  exact codeAt_codeTable (h.rev_ok hc).symbols_nodup x p

/-- No entry of REV lies beyond NDIST (R40). -/
theorem Inv.revEntries_eq (h : Inv s) (hc : s.status.ctValid = true) : s.revEntries = s.rev := by
  unfold State.revEntries
  rw [List.take_of_length_le]
  rw [(h.rev_ok hc).length_eq, h.tables.ndist]

/-- A fault keeps the invariant. -/
theorem Inv.raise (h : Inv s) (r : Raised) (hr : 1 ≤ r.cause.code.toNat ∧ r.cause.code.toNat ≤ 7) :
    Inv (s.raise r) := by
  obtain ⟨⟨a, b, c, d, _, _, g, i, j⟩, ⟨k, l, m, n, o⟩⟩ := h
  exact ⟨⟨a, b, c, d, fun h => by simp at h, fun _ => hr, g, i, j⟩, ⟨k, l, m, n, o⟩⟩

/-- The invariant does not look at the operand, result and selector registers nor at what the host sends,
and at MEM only for its form. -/
theorem Inv.of_same (h : Inv s) {t : State} (hm : Memory.wf s.params.memSize t.mem)
    (ht : t = { s with
      mem := t.mem, rlen := t.rlen, plen := t.plen, extra := t.extra, src := t.src, slen := t.slen
      dst := t.dst, dcap := t.dcap, tsel := t.tsel, pending := t.pending, reply := t.reply }) : Inv t := by
  obtain ⟨⟨a, _, c, d, e, f, g, i, j⟩, ⟨k, l, m, n, o⟩⟩ := h
  rw [ht]
  exact ⟨⟨a, hm, c, d, e, f, g, i, j⟩, ⟨k, l, m, n, o⟩⟩

end Sys2Proof.Machine
end

