-- ==== Sys2Proof/Laws/PerInstr.lean ====
section
/-! SUPPORT. What holds of every command as syntax, one lemma per constructor (30_encoding.md R84, R86, R87). -/

namespace Sys2Proof.Laws.WordForm

/-- The command is well formed and its word is a legal command word, hit by exactly one row of the opcode
table, which is its own. -/
def Statement (i : Instr) : Prop :=
  WellFormed.instr i = true ∧ WellFormed.commandWord (encode i) = true ∧
    (opcodeTable.filter fun r => r.hits (encode i)).map (·.command) = [i] ∧
    (encode i).toNat = (opcode i).toNat

theorem clear : Statement .clear := by unfold Statement; decide

theorem analyze : Statement .analyze := by unfold Statement; decide

theorem build : Statement .build := by unfold Statement; decide

theorem gencode : Statement .gencode := by unfold Statement; decide

theorem pack : Statement .pack := by unfold Statement; decide

theorem unpack : Statement .unpack := by unfold Statement; decide

theorem fack : Statement .fack := by unfold Statement; decide

end Sys2Proof.Laws.WordForm
end

