-- ==== Sys2Proof/Tests/Slice0.lean ====
section
/-! SUPPORT. The model's own tests: what WellFormed refuses, words written out bit by bit, one step of each
command on vectors of spec/95_test_vectors.md, and a witness for the hypotheses of each obligation. -/

namespace Sys2Proof.Machine.Tests

set_option maxRecDepth 4000
set_option Elab.async false

/-! ### Small states -/

/-- The state a next answer holds. -/
def after (r : Result) : State :=
  match r with
  | .next t => t
  | .fault _ => State.reset
  | .refused _ => State.reset

/-- Does it answer a next state? -/
def answers (r : Result) : Bool :=
  match r with
  | .next _ => true
  | .fault _ => false
  | .refused _ => false

theorem next_after {r : Result} (h : answers r = true) : r = .next (after r) := by
  cases r <;> simp [answers, after] at h ⊢

/-- Commands one after the other. -/
def run (l : List Instr) (s : State) : State := l.foldl (fun s i => after (exec i s)) s

/-- Right after reset, with bytes at address 0, SRC = 0, SLEN their number, DST and DCAP. -/
def ready (bytes : List Byte) (dst dcap : Word) : State :=
  { State.reset with
    mem := memWriteBytes [] 0 bytes, slen := BitVec.ofNat 32 bytes.length, dst := dst, dcap := dcap }

/-- "aabbbcccc" (S1). -/
def text : List Byte := [0x61, 0x61, 0x62, 0x62, 0x62, 0x63, 0x63, 0x63, 0x63]

/-- The text counted: V-A1. -/
def counted : State := run [.analyze] (ready text 0x100 16)

/-- The tree built: V-B1. -/
def built : State := run [.build] counted

/-- The code table made: V-G1. -/
def trained : State := run [.gencode] built

/-- V-G1 with an artifact in MEM for UNPACK. -/
def holding (bytes : List Byte) (dcap : Word) : State :=
  { trained with
    mem := memWriteBytes [] 0 bytes, slen := BitVec.ofNat 32 bytes.length, dcap := dcap }

/-- The empty text's run (V-B3, V-G3) and that of "aa" (V-B2, V-G2). -/
def trainedEmpty : State := run [.analyze, .build, .gencode] (ready [] 0x100 16)

def trainedSingle : State := run [.analyze, .build, .gencode] (ready [0x61, 0x61] 0x100 16)

/-- Ready to compress, with exactly the DCAP of R199; and the same text in another state. -/
def prepared : State := ready text 0x100 288

def preparedElsewhere : State := { trainedSingle with
  mem := memWriteBytes [] 0x40 text, src := 0x40, slen := 9, dst := 0x300, dcap := 4 }

/-- A state whose next event is a transaction. -/
def sending (t : Transaction) (s : State) : State := { s with pending := [.tx t] }

/-- A state with a fault pending. -/
def failed : State := trained.faulted 4 2

/-! ### WellFormed refuses -/

theorem test_wf_reserved_bit_8 : WellFormed.reservedZero 0x00000101#32 = false := by decide

theorem test_wf_reserved_bit_31 : WellFormed.reservedZero 0x80000001#32 = false := by decide

theorem test_wf_opcode_0 : WellFormed.opcodeAssigned 0x00000000#32 = false := by decide

theorem test_wf_opcode_8 : WellFormed.opcodeAssigned 0x00000008#32 = false := by decide

theorem test_wf_word : WellFormed.commandWord 0x00000105#32 = false := by decide

theorem test_wf_params_0 : WellFormed.params { memSize := 0 } = false := by decide

theorem test_wf_params_over : WellFormed.params { memSize := 2 ^ 28 + 1 } = false := by decide

theorem test_wf_params_edges :
    WellFormed.params { memSize := 1 } = true ∧ WellFormed.params { memSize := 2 ^ 28 } = true := by decide

/-! ### Words bit by bit, OP in bits 7:0 under 24 zero bits (R84, R86) -/

theorem test_decode_clear :
    decode 0b00000000000000000000000000000001#32 = .command .clear := by decide

theorem test_decode_analyze :
    decode 0b00000000000000000000000000000010#32 = .command .analyze := by decide

theorem test_decode_build :
    decode 0b00000000000000000000000000000011#32 = .command .build := by decide

theorem test_decode_gencode :
    decode 0b00000000000000000000000000000100#32 = .command .gencode := by decide

theorem test_decode_pack :
    decode 0b00000000000000000000000000000101#32 = .command .pack := by decide

theorem test_decode_unpack :
    decode 0b00000000000000000000000000000110#32 = .command .unpack := by decide

theorem test_decode_fack :
    decode 0b00000000000000000000000000000111#32 = .command .fack := by decide

theorem test_decodeTableWord_pack : decodeTableWord 32 5 = some .pack := by decide

theorem test_decodeTableWord_illegal : decodeTableWord 32 0x105 = none := by decide

theorem test_fetch_analyze :
    (after (step (State.reset.withFetchWord 32 2))).status =
      { fault := false, ftValid := true, treeValid := false, ctValid := false } := by decide

/-! ### One step of each command -/

/-- V-A1. -/
theorem test_analyze : counted.freq = [(0x61, 2), (0x62, 3), (0x63, 4)] ∧ counted.ndist = 3 := by
  decide +kernel

/-- V-A10: the sum is not wrapped. -/
theorem test_analyze_range :
    (after (exec .analyze { State.reset with src := 0xFFFFFFFF, slen := 0xFFFFFFFF })).err = 3 := by
  decide

/-- V-B1, the last node. -/
theorem test_build :
    built.nnodes = 5 ∧ built.root = 4 ∧
      built.node[4]? = some { leaf := false, sym := 0, freq := 9, left := 2, right := 3 } := by
  decide +kernel

/-- V-B10: left and right follow the popping order. -/
theorem test_build_left_is_first_popped :
    (run [.analyze, .build] (ready [0x61, 0x61, 0x62] 0x100 16)).node[2]? =
      some { leaf := false, sym := 0, freq := 3, left := 1, right := 0 } := by
  decide +kernel

/-- V-G1. -/
theorem test_gencode :
    trained.rev =
      [{ sym := 0x63, bits := [false] }, { sym := 0x61, bits := [true, false] },
       { sym := 0x62, bits := [true, true] }] := by
  decide +kernel

/-- V-G2: the one-bit code of a one-symbol text. -/
theorem test_gencode_single :
    (run [.analyze, .build, .gencode] (ready [0x61, 0x61] 0x100 16)).code = [(0x61, [false])] := by
  decide +kernel

/-- V-P1. -/
theorem test_pack :
    (run [.pack] trained).readBytes 0x100 3 = [0x02, 0xAF, 0xC0] ∧ (run [.pack] trained).plen = 14 := by
  decide +kernel

/-- V-P17: DCAP one too small. -/
theorem test_pack_dstcap :
    (run [.pack] { trained with dcap := 2 }).err = 5 ∧ (run [.pack] { trained with dcap := 2 }).mem = trained.mem := by
  decide +kernel

/-- V-U1. -/
theorem test_unpack :
    (run [.unpack] (holding [0x02, 0xAF, 0xC0] 9)).readBytes 0x100 9 = text ∧
      (run [.unpack] (holding [0x02, 0xAF, 0xC0] 9)).extra = 2 := by
  decide +kernel

/-- V-U16. -/
theorem test_unpack_unterminated :
    (run [.unpack] (holding [0x11, 0xAF, 0xC0, 0x00] 9)).err = 7 ∧
      (run [.unpack] (holding [0x11, 0xAF, 0xC0, 0x00] 9)).errInfo = 6 := by
  decide +kernel

/-- V-C1. -/
theorem test_clear :
    (run [.clear] trained).root = 0x1FF ∧ (run [.clear] trained).dst = 0x100 ∧
      (run [.clear] trained).code = [] := by
  decide +kernel

/-- V-C3: only the fault goes. -/
theorem test_fack :
    (run [.fack] failed).status = trained.status ∧ (run [.fack] failed).rev = trained.rev ∧
      (run [.fack] failed).err = 0 := by
  decide +kernel

/-- V-G1 in the window: CODE[b]. -/
theorem test_window_code :
    { trained with tsel := 0x462 }.window 0 = 0x80000002 ∧
      { trained with tsel := 0x462 }.window 1 = 0xC0000000 := by
  decide +kernel

/-! ### States of a run that meet the invariant -/

theorem inv_reset : Inv State.reset where
  control :=
    { params := by decide
      mem := by decide
      treeStage := by decide
      codeStage := by decide
      noFault := by decide
      faultCode := by decide
      freqEmpty := by decide
      treeEmpty := by decide
      codesEmpty := by decide }
  tables :=
    { freqForm := by decide
      freqTotal := by decide +kernel
      ndist := by decide +kernel
      tree := by decide
      codes := by decide }

theorem inv_built : Inv built where
  control :=
    { params := by decide +kernel
      mem := by decide +kernel
      treeStage := by decide +kernel
      codeStage := by decide +kernel
      noFault := by decide +kernel
      faultCode := by decide +kernel
      freqEmpty := by decide +kernel
      treeEmpty := by decide +kernel
      codesEmpty := by decide +kernel }
  tables :=
    { freqForm := by decide +kernel
      freqTotal := by decide +kernel
      ndist := by decide +kernel
      tree := by decide +kernel
      codes := by decide +kernel }

theorem inv_trained : Inv trained where
  control :=
    { params := by decide +kernel
      mem := by decide +kernel
      treeStage := by decide +kernel
      codeStage := by decide +kernel
      noFault := by decide +kernel
      faultCode := by decide +kernel
      freqEmpty := by decide +kernel
      treeEmpty := by decide +kernel
      codesEmpty := by decide +kernel }
  tables :=
    { freqForm := by decide +kernel
      freqTotal := by decide +kernel
      ndist := by decide +kernel
      tree := by decide +kernel
      codes := by decide +kernel }

theorem inv_trained_empty : Inv trainedEmpty where
  control :=
    { params := by decide +kernel
      mem := by decide +kernel
      treeStage := by decide +kernel
      codeStage := by decide +kernel
      noFault := by decide +kernel
      faultCode := by decide +kernel
      freqEmpty := by decide +kernel
      treeEmpty := by decide +kernel
      codesEmpty := by decide +kernel }
  tables :=
    { freqForm := by decide +kernel
      freqTotal := by decide +kernel
      ndist := by decide +kernel
      tree := by decide +kernel
      codes := by decide +kernel }

theorem inv_trained_single : Inv trainedSingle where
  control :=
    { params := by decide +kernel
      mem := by decide +kernel
      treeStage := by decide +kernel
      codeStage := by decide +kernel
      noFault := by decide +kernel
      faultCode := by decide +kernel
      freqEmpty := by decide +kernel
      treeEmpty := by decide +kernel
      codesEmpty := by decide +kernel }
  tables :=
    { freqForm := by decide +kernel
      freqTotal := by decide +kernel
      ndist := by decide +kernel
      tree := by decide +kernel
      codes := by decide +kernel }

theorem inv_prepared : Inv prepared where
  control :=
    { params := by decide +kernel
      mem := by decide +kernel
      treeStage := by decide +kernel
      codeStage := by decide +kernel
      noFault := by decide +kernel
      faultCode := by decide +kernel
      freqEmpty := by decide +kernel
      treeEmpty := by decide +kernel
      codesEmpty := by decide +kernel }
  tables :=
    { freqForm := by decide +kernel
      freqTotal := by decide +kernel
      ndist := by decide +kernel
      tree := by decide +kernel
      codes := by decide +kernel }

theorem inv_prepared_elsewhere : Inv preparedElsewhere where
  control :=
    { params := by decide +kernel
      mem := by decide +kernel
      treeStage := by decide +kernel
      codeStage := by decide +kernel
      noFault := by decide +kernel
      faultCode := by decide +kernel
      freqEmpty := by decide +kernel
      treeEmpty := by decide +kernel
      codesEmpty := by decide +kernel }
  tables :=
    { freqForm := by decide +kernel
      freqTotal := by decide +kernel
      ndist := by decide +kernel
      tree := by decide +kernel
      codes := by decide +kernel }

theorem codesOk_trained : CodesOk trained where
  inverse := fun x p => by
    rw [inv_trained.revEntries_eq (by decide +kernel)]
    exact inv_trained.codeAt_iff (by decide +kernel) x p
  once := by decide +kernel
  prefixFree := by decide +kernel
  nonEmpty := by decide +kernel

theorem codesOk_holding (bytes : List Byte) (dcap : Word) : CodesOk (holding bytes dcap) :=
  { inverse := codesOk_trained.inverse
    once := codesOk_trained.once
    prefixFree := codesOk_trained.prefixFree
    nonEmpty := codesOk_trained.nonEmpty }

theorem regions_trained : RegionsOk trained :=
  { src := by decide +kernel, dst := by decide +kernel, apart := by decide +kernel }

/-- Destination next to the source, no byte between (V-P23). -/
theorem regions_adjacent : RegionsOk { trained with dst := 9 } :=
  { src := by decide +kernel, dst := by decide +kernel, apart := by decide +kernel }

theorem regions_holding : RegionsOk (holding [0x02, 0xAF, 0xC0] 9) :=
  { src := by decide +kernel, dst := by decide +kernel, apart := by decide +kernel }

/-! ### Witnesses: states and operands that meet the hypotheses of each obligation, clause by clause -/

theorem witness_DecoderIsExactAndAgreesWithTheTable :
    (0x100#32).extractLsb' 8 24 ≠ 0 ∧
    ((0#32).extractLsb' 8 24 = 0 ∧ ((0#32).extractLsb' 0 8).toNat = 0) ∧
    ((8#32).extractLsb' 8 24 = 0 ∧ 8 ≤ ((8#32).extractLsb' 0 8).toNat) ∧
    opcodeTable ≠ [] ∧ ∀ r ∈ opcodeTable, 0x105#32 &&& r.mask ≠ r.pattern := by decide

theorem witness_DecodeOfEncodeIsTheCommand : WellFormed.instr .unpack = true := rfl

theorem witness_ByteAndBitStringAreInverse : (bits8 0xA5).length = 8 ∧ 7 < 8 := by decide

theorem witness_BitstreamIsMsbFirst : ([0x01, 0x80] : List Byte)[1]? = some 0x80 ∧ 7 < 8 := by decide

theorem witness_ArtifactLayout :
    ([true, false] : Bits)[1]? = some false ∧ 7 < 8 - (zeros 8).length % 8 ∧ 0 < 8 - (zeros 7).length % 8 := by
  decide

theorem witness_StepRunsTheDecodedCommand :
    (sending (.wr 0 5) trained).pending = .tx (.wr 0 5) :: [] ∧
    (sending (.wr 0 5) trained).status.fault = false ∧ decode 5 = .command .pack := by decide +kernel

theorem witness_WordsAreDroppedWhileFaultIsSet :
    (∀ w : Word, (sending (.wr 0 w) failed).pending = .tx (.wr 0 w) :: [] ∧
      (sending (.wr 0 w) failed).status.fault = true) ∧
    0x00000000#32 ≠ 0x00000001#32 ∧ 0x00000000#32 ≠ 0x00000007#32 :=
  ⟨fun _ => ⟨rfl, rfl⟩, by decide⟩

theorem witness_IllegalWordFaults :
    (∀ w : Word, (sending (.wr 0 w) trained).pending = .tx (.wr 0 w) :: [] ∧
      (sending (.wr 0 w) failed).pending = .tx (.wr 0 w) :: []) ∧
    trained.status.fault = false ∧ failed.status.fault = true ∧ (0x100#32).extractLsb' 8 24 ≠ 0 ∧
    ((0#32).extractLsb' 0 8).toNat = 0 ∧ 8 ≤ ((8#32).extractLsb' 0 8).toNat :=
  ⟨fun _ => ⟨rfl, rfl⟩, by decide +kernel⟩

theorem witness_RegisterNumbersAreTheMap :
    regOfNumber 0 = some .cmd ∧ regOfNumber 24 = some (.td 8) := by decide

theorem witness_RegisterReadReturnsTheValue :
    (∀ r : Word, (sending (.rd r) trained).pending = .tx (.rd r) :: []) ∧
    (24#32).toNat = 16 + (8 : Fin 9).val ∧ (16#32).toNat = 16 + (0 : Fin 9).val ∧ 25 ≤ (25#32).toNat :=
  ⟨fun _ => rfl, by decide⟩

theorem witness_RegisterWriteStoresOrIsIgnored :
    (∀ r v : Word, (sending (.wr r v) trained).pending = .tx (.wr r v) :: []) ∧
    (15#32 ≠ 0 ∧ 15#32 ≠ 4 ∧ 15#32 ≠ 5 ∧ 15#32 ≠ 6 ∧ 15#32 ≠ 7 ∧ 15#32 ≠ 14) :=
  ⟨fun _ _ => rfl, by decide⟩

theorem witness_HostMemoryAccess :
    (∀ a v : Word, (sending (.mr a) trained).pending = .tx (.mr a) :: [] ∧
      (sending (.mw a v) trained).pending = .tx (.mw a v) :: []) ∧
    (65535#32).toNat < trained.params.memSize ∧ trained.params.memSize ≤ (65536#32).toNat :=
  ⟨fun _ _ => ⟨rfl, rfl⟩, by decide +kernel⟩

/-- Entries at the edges of each table: FREQ 255 and 256, NODE 4 and 5, CODE[b], CODE 256 and a symbol without
a code, REV 2 and 3, and REV behind a clear flag. -/
theorem witness_WindowShowsTheSelectedEntry :
    ((0x0FF#11).toNat = 512 * 0 + 255 ∧ (0x100#11).toNat = 512 * 0 + 256) ∧
    ((0x204#11).toNat = 512 * 1 + 4 ∧ (trained.nodeAt 4).isSome = true ∧
      (0x205#11).toNat = 512 * 1 + 5 ∧ trained.nnodes.toNat ≤ 5) ∧
    ((0x462#11).toNat = 512 * 2 + 0x62 ∧
      codeAt trained.code (BitVec.ofNat 8 0x62) = some [true, true] ∧
      (0x464#11).toNat = 512 * 2 + 0x64 ∧ codeAt trained.code (BitVec.ofNat 8 0x64) = none ∧
      (0x500#11).toNat = 512 * 2 + 256) ∧
    ((0x602#11).toNat = 512 * 3 + 2 ∧ 2 < trained.ndist.toNat ∧ trained.status.ctValid = true ∧
      trained.rev[2]? = some { sym := 0x62, bits := [true, true] } ∧
      (0x603#11).toNat = 512 * 3 + 3 ∧ trained.ndist.toNat ≤ 3) ∧
    (Inv built ∧ built.status.ctValid = false) ∧
    Inv State.reset ∧ State.reset.status.ftValid = false ∧ State.reset.status.treeValid = false :=
  ⟨by decide +kernel, by decide +kernel, by decide +kernel, by decide +kernel,
    ⟨inv_built, by decide +kernel⟩, inv_reset, rfl, rfl⟩

theorem witness_CodeWordsAreLeftAligned : (List.replicate 255 true).length ≤ 255 ∧ 255 < 256 := by decide

theorem witness_ResetEventAndIdleStep :
    { trained with pending := [.reset] }.pending = .reset :: [] ∧
    step { trained with pending := [.reset] } =
      .next (after (step { trained with pending := [.reset] })) ∧
    State.reset.pending = [] := ⟨rfl, rfl, rfl⟩

/-- The last byte of MEM is inside, the one after it is not. -/
theorem witness_AnalyzeResult :
    prepared.params.memSize ≤ 2 ^ 28 ∧
    (let s := { prepared with src := 65527, slen := 9 };
      s.src.toNat + s.slen.toNat ≤ s.params.memSize) ∧
    (let s := { prepared with src := 65536, slen := 1 };
      s.params.memSize < s.src.toNat + s.slen.toNat) := by decide +kernel

theorem witness_AnalyzeResultLaw :
    prepared.params.memSize ≤ 2 ^ 28 ∧
    prepared.src.toNat + prepared.slen.toNat ≤ prepared.params.memSize ∧
    exec .analyze prepared = .next (after (exec .analyze prepared)) ∧
    (ready text.reverse 0x100 16).src.toNat + (ready text.reverse 0x100 16).slen.toNat ≤
      (ready text.reverse 0x100 16).params.memSize ∧
    ((ready text.reverse 0x100 16).readBytes 0 9).Perm (prepared.readBytes 0 9) ∧
    exec .analyze (ready text.reverse 0x100 16) =
      .next (after (exec .analyze (ready text.reverse 0x100 16))) :=
  ⟨by decide, by decide, next_after (by decide +kernel), by decide, by decide +kernel,
    next_after (by decide +kernel)⟩

theorem witness_BuildResult :
    State.reset.status.ftValid = false ∧ counted.status.ftValid = true ∧
    totalCount counted.freq < 2 ^ 32 := by decide +kernel

theorem witness_TreeShapeWhileTreeValid : Inv built ∧ built.status.treeValid = true :=
  ⟨inv_built, by decide +kernel⟩

/-- The root, the last node. -/
theorem witness_EveryNodeHasOnePath :
    Inv built ∧ built.status.treeValid = true ∧ (4 : NodeIdx).toNat < built.nnodes.toNat :=
  ⟨inv_built, by decide +kernel⟩

theorem witness_BuildOfEmptyAndSingleTable :
    (trainedEmpty.status.ftValid = true ∧ ∀ x : Symbol, freqAt trainedEmpty.freq x = 0) ∧
    trainedSingle.status.ftValid = true ∧ freqAt trainedSingle.freq 0x61 ≠ 0 ∧
    ∀ y : Symbol, y ≠ 0x61 → freqAt trainedSingle.freq y = 0 := by decide +kernel

theorem witness_BuildIsAFunctionOfFreq :
    counted.status.ftValid = true ∧ trained.status.ftValid = true ∧
    (∀ x : Symbol, freqAt counted.freq x = freqAt trained.freq x) ∧
    exec .build counted = .next built ∧ exec .build trained = .next (after (exec .build trained)) :=
  ⟨by decide +kernel, by decide +kernel, by decide +kernel, next_after (by decide +kernel),
    next_after (by decide +kernel)⟩

/-- No tree, the empty tree, a root that is a leaf, a root that is not. -/
theorem witness_GencodeResult :
    counted.status.treeValid = false ∧
    (Inv trainedEmpty ∧ trainedEmpty.status.treeValid = true ∧ trainedEmpty.root = 0x1FF) ∧
    (Inv trainedSingle ∧ trainedSingle.status.treeValid = true ∧ trainedSingle.root ≠ 0x1FF ∧
      (trainedSingle.nodeAt trainedSingle.root.toNat).map (·.leaf) = some true) ∧
    Inv built ∧ built.status.treeValid = true ∧ built.root ≠ 0x1FF ∧
      (built.nodeAt built.root.toNat).map (·.leaf) = some false :=
  ⟨by decide +kernel, ⟨inv_trained_empty, by decide +kernel⟩, ⟨inv_trained_single, by decide +kernel⟩,
    inv_built, by decide +kernel⟩

theorem witness_CodeTablesInverseAndPrefixFree : Inv trained ∧ trained.status.ctValid = true :=
  ⟨inv_trained, by decide +kernel⟩

theorem witness_CodeTableLaws :
    (Inv trained ∧ trained.status.ctValid = true ∧ 2 ≤ trained.ndist.toNat ∧
      ∀ x : Symbol, text.count x = (freqAt trained.freq x).toNat) ∧
    (Inv trainedSingle ∧ trainedSingle.status.ctValid = true ∧ trainedSingle.ndist.toNat = 1) ∧
    Inv trainedEmpty ∧ trainedEmpty.status.ctValid = true ∧ trainedEmpty.ndist.toNat = 0 :=
  ⟨⟨inv_trained, by decide +kernel⟩, ⟨inv_trained_single, by decide +kernel⟩, inv_trained_empty,
    by decide +kernel⟩

theorem witness_RepeatedBuildAndGencodeGiveTheSame :
    Inv trained ∧ trained.status.treeValid = true ∧ trained.status.ctValid = true :=
  ⟨inv_trained, by decide +kernel⟩

/-- The payload of "aabbbcccc" (V-P1). -/
def payload : Bits :=
  [true, false, true, false, true, true, true, true, true, true, false, false, false, false]

/-- V-P18: DCAP just large enough. -/
theorem witness_PackResult :
    (let s := { trained with dcap := 3 };
      s.params.memSize ≤ 2 ^ 28 ∧ s.status.ctValid = true ∧
      payloadOf s.code (s.readBytes s.src.toNat s.slen.toNat) = some payload ∧
      payload.length / 8 + 2 ≤ s.dcap.toNat) ∧ RegionsOk { trained with dcap := 3 } :=
  ⟨by decide +kernel, ⟨by decide +kernel, by decide +kernel, by decide +kernel⟩⟩

/-- V-P21, V-P25, V-P24, V-P22, V-P14, V-P17. -/
theorem witness_PackResult_faults :
    built.status.ctValid = false ∧ trained.status.ctValid = true ∧
    (let s := { trained with src := 0x10000, slen := 1 };
      s.params.memSize < s.src.toNat + s.slen.toNat) ∧
    (let s := { trained with dst := 0xFFF8 };
      s.src.toNat + s.slen.toNat ≤ s.params.memSize ∧ s.params.memSize < s.dst.toNat + s.dcap.toNat) ∧
    (let s := { trained with dst := 8 };
      s.dst.toNat + s.dcap.toNat ≤ s.params.memSize ∧ s.slen ≠ 0 ∧ s.dcap ≠ 0 ∧
      s.dst.toNat < s.src.toNat + s.slen.toNat ∧ s.src.toNat < s.dst.toNat + s.dcap.toNat) ∧
    (let s := holding [0x61, 0x62, 0x64] 16;
      s.readBytes s.src.toNat s.slen.toNat = [0x61, 0x62] ++ 0x64 :: [] ∧
      (∀ y ∈ ([0x61, 0x62] : List Symbol), (codeAt s.code y).isSome = true) ∧
      codeAt s.code 0x64 = none) ∧
    (let s := { trained with dcap := 2 };
      payloadOf s.code (s.readBytes s.src.toNat s.slen.toNat) = some payload ∧
      s.dcap.toNat < payload.length / 8 + 2) ∧
    RegionsOk (holding [0x61, 0x62, 0x64] 16) ∧ RegionsOk { trained with dcap := 2 } :=
  ⟨by decide +kernel, by decide +kernel, by decide +kernel, by decide +kernel, by decide +kernel,
    by decide +kernel, by decide +kernel, ⟨by decide +kernel, by decide +kernel, by decide +kernel⟩,
    ⟨by decide +kernel, by decide +kernel, by decide +kernel⟩⟩

theorem witness_PackLengthLaws :
    trained.params.memSize ≤ 2 ^ 28 ∧ trained.status.fault = false ∧
    exec .pack trained = .next (after (exec .pack trained)) ∧
    (after (exec .pack trained)).status.fault = false :=
  ⟨by decide +kernel, by decide +kernel, next_after (by decide +kernel), by decide +kernel⟩

/-- The entries the payload of V-U1 is made of. -/
def entries : List RevEntry :=
  let a : RevEntry := { sym := 0x61, bits := [true, false] }
  let b : RevEntry := { sym := 0x62, bits := [true, true] }
  let c : RevEntry := { sym := 0x63, bits := [false] }
  [a, a, b, b, b, c, c, c, c]

/-- V-U30: DCAP just large enough. -/
theorem witness_UnpackResult :
    (let s := holding [0x02, 0xAF, 0xC0] 9;
      s.params.memSize ≤ 2 ^ 28 ∧ s.status.ctValid = true ∧ (∀ e ∈ entries, e ∈ s.revEntries) ∧
      bitsOfBytes (s.readBytes s.src.toNat s.slen.toNat) =
        bits8 0x02 ++ entries.flatMap (·.bits) ++ [false, false] ∧
      [false, false].length = (0x02 : Byte).toNat ∧ entries.length ≤ s.dcap.toNat) ∧
    RegionsOk (holding [0x02, 0xAF, 0xC0] 9) ∧ CodesOk (holding [0x02, 0xAF, 0xC0] 9) :=
  ⟨by decide +kernel, regions_holding, codesOk_holding _ _⟩

/-- V-U32, the range clauses as for PACK, V-U5, V-U4 and V-U6 (FORMAT at its edge), V-U8, V-U29. -/
theorem witness_UnpackResult_faults :
    built.status.ctValid = false ∧
    (let s := { trained with src := 0x10000, slen := 1 };
      s.status.ctValid = true ∧ s.params.memSize < s.src.toNat + s.slen.toNat) ∧
    (let s := { trained with dst := 0xFFF8 };
      s.src.toNat + s.slen.toNat ≤ s.params.memSize ∧ s.params.memSize < s.dst.toNat + s.dcap.toNat) ∧
    (let s := { trained with dst := 8 };
      s.dst.toNat + s.dcap.toNat ≤ s.params.memSize ∧ s.slen ≠ 0 ∧ s.dcap ≠ 0 ∧
      s.dst.toNat < s.src.toNat + s.slen.toNat ∧ s.src.toNat < s.dst.toNat + s.dcap.toNat) ∧
    (holding [] 9).slen = 0 ∧
    (let s := holding [0x09, 0x00] 9;
      s.slen ≠ 0 ∧ 8 * (s.slen.toNat - 1) < (s.readByte s.src.toNat).toNat) ∧
    (let s := holding [0x00, 0x01] 9;
      let es := List.replicate 7 ({ sym := 0x63, bits := [false] } : RevEntry);
      (∀ e ∈ es, e ∈ s.revEntries) ∧
      bitsOfBytes (s.readBytes s.src.toNat s.slen.toNat) =
        bits8 0x00 ++ (es.flatMap (·.bits) ++ [true]) ++ [] ∧
      ∀ e ∈ s.revEntries, ¬ e.bits <+: [true]) ∧
    (let s := holding [0x02, 0xAF, 0xC0] 8;
      bitsOfBytes (s.readBytes s.src.toNat s.slen.toNat) =
        bits8 0x02 ++ (entries.flatMap (·.bits) ++ []) ++ [false, false] ∧
      s.dcap.toNat < entries.length) ∧
    (RegionsOk (holding [] 9) ∧ RegionsOk (holding [0x09, 0x00] 9) ∧
      RegionsOk (holding [0x00, 0x01] 9) ∧ RegionsOk (holding [0x02, 0xAF, 0xC0] 8)) ∧
    CodesOk (holding [0x00, 0x01] 9) ∧ CodesOk (holding [0x02, 0xAF, 0xC0] 8) :=
  ⟨by decide +kernel, by decide +kernel, by decide +kernel, by decide +kernel, by decide +kernel,
    by decide +kernel, by decide +kernel, by decide +kernel,
    ⟨⟨by decide +kernel, by decide +kernel, by decide +kernel⟩,
      ⟨by decide +kernel, by decide +kernel, by decide +kernel⟩,
      ⟨by decide +kernel, by decide +kernel, by decide +kernel⟩,
      ⟨by decide +kernel, by decide +kernel, by decide +kernel⟩⟩,
    codesOk_holding _ _, codesOk_holding _ _⟩

/-- V-U30, V-U8, V-U29 (one for each outcome) and the padding count exactly 8·(SLEN − 1). -/
theorem witness_UnpackOfEveryArtifact :
    (∀ s ∈ [holding [0x02, 0xAF, 0xC0] 9, holding [0x00, 0x01] 9, holding [0x02, 0xAF, 0xC0] 8,
        holding [0x08, 0x00] 9],
      s.params.memSize ≤ 2 ^ 28 ∧ s.status.ctValid = true ∧ s.slen ≠ 0 ∧
      (s.readByte s.src.toNat).toNat ≤ 8 * (s.slen.toNat - 1)) ∧
    (holding [0x08, 0x00] 9).slen.toNat = 2 ∧
    (∀ bs c, CodesOk (holding bs c)) ∧
    RegionsOk (holding [0x02, 0xAF, 0xC0] 9) ∧ RegionsOk (holding [0x00, 0x01] 9) ∧
    RegionsOk (holding [0x02, 0xAF, 0xC0] 8) ∧ RegionsOk (holding [0x08, 0x00] 9) :=
  ⟨by decide +kernel, by decide +kernel, codesOk_holding, regions_holding,
    ⟨by decide +kernel, by decide +kernel, by decide +kernel⟩,
    ⟨by decide +kernel, by decide +kernel, by decide +kernel⟩,
    ⟨by decide +kernel, by decide +kernel, by decide +kernel⟩⟩

/-- UNPACK of what V-P1 wrote, into a window of exactly 9 bytes. -/
theorem witness_UnpackInvertsPack :
    let t := after (exec .pack trained)
    let u : State := { t with src := trained.dst, slen := t.rlen, dst := 0x200, dcap := 9 }
    trained.params.memSize ≤ 2 ^ 28 ∧ CodesOk trained ∧ trained.status.fault = false ∧
    exec .pack trained = .next t ∧ t.status.fault = false ∧ RegionsOk u ∧
    trained.slen.toNat ≤ (9 : Word).toNat :=
  ⟨by decide +kernel, codesOk_trained, by decide +kernel, next_after (by decide +kernel),
    by decide +kernel, ⟨by decide +kernel, by decide +kernel, by decide +kernel⟩, by decide +kernel⟩

/-- DCAP exactly at the bound of R199. -/
theorem witness_CompressNeverFaults :
    Inv prepared ∧ prepared.status.fault = false ∧ RegionsOk prepared ∧
    prepared.slen.toNat * 255 / 8 + 2 ≤ prepared.dcap.toNat :=
  ⟨inv_prepared, by decide, ⟨by decide, by decide, by decide⟩, by decide⟩

/-- The text compressed, and a window of exactly 9 bytes to put it back. -/
theorem witness_CodecRoundTrip :
    let t₃ := run [.analyze, .build, .gencode] prepared
    let t₄ := after (exec .pack t₃)
    Inv prepared ∧ prepared.status.fault = false ∧ RegionsOk prepared ∧
    payloadOf t₃.code (prepared.readBytes prepared.src.toNat prepared.slen.toNat) = some payload ∧
    payload.length / 8 + 2 ≤ prepared.dcap.toNat ∧
    RegionsOk { t₄ with src := prepared.dst, slen := t₄.rlen, dst := 0x300, dcap := 9 } ∧
    prepared.slen.toNat ≤ (9 : Word).toNat :=
  ⟨inv_prepared, by decide, ⟨by decide, by decide, by decide⟩, by decide +kernel, by decide +kernel,
    ⟨by decide +kernel, by decide +kernel, by decide +kernel⟩, by decide⟩

/-- Two different states that hold the same text. -/
theorem witness_CompressIsAFunctionOfTheText :
    let t₁ := after (exec .analyze prepared)
    let t₂ := after (exec .build t₁)
    let t₃ := after (exec .gencode t₂)
    let t₄ := after (exec .pack t₃)
    let t₁' := after (exec .analyze preparedElsewhere)
    let t₂' := after (exec .build t₁')
    let t₃' := after (exec .gencode t₂')
    let t₄' := after (exec .pack t₃')
    (Inv prepared ∧ Inv preparedElsewhere ∧ prepared.status.fault = false ∧
      preparedElsewhere.status.fault = false) ∧
    (exec .analyze prepared = .next t₁ ∧ exec .build t₁ = .next t₂ ∧ exec .gencode t₂ = .next t₃ ∧
      exec .pack t₃ = .next t₄ ∧ t₁.status.fault = false ∧ t₄.status.fault = false) ∧
    (exec .analyze preparedElsewhere = .next t₁' ∧ exec .build t₁' = .next t₂' ∧
      exec .gencode t₂' = .next t₃' ∧ exec .pack t₃' = .next t₄' ∧ t₁'.status.fault = false ∧
      t₄'.status.fault = false) ∧
    prepared.readBytes prepared.src.toNat prepared.slen.toNat =
      preparedElsewhere.readBytes preparedElsewhere.src.toNat preparedElsewhere.slen.toNat :=
  ⟨⟨inv_prepared, inv_prepared_elsewhere, by decide +kernel, by decide +kernel⟩,
    ⟨next_after (by decide +kernel), next_after (by decide +kernel), next_after (by decide +kernel),
      next_after (by decide +kernel), by decide +kernel, by decide +kernel⟩,
    ⟨next_after (by decide +kernel), next_after (by decide +kernel), next_after (by decide +kernel),
      next_after (by decide +kernel), by decide +kernel, by decide +kernel⟩, by decide +kernel⟩

theorem witness_FaultingCommandChangesOnlyFaultRegisters :
    exec .pack built = .next (after (exec .pack built)) ∧ built.status.fault = false ∧
    (after (exec .pack built)).status.fault = true :=
  ⟨next_after (by decide +kernel), by decide +kernel, by decide +kernel⟩

/-- A dropped word and a FACK. -/
theorem witness_FaultsDoNotNest :
    failed.status.fault = true ∧
    step (sending (.wr 0 0) failed) = .next (after (step (sending (.wr 0 0) failed))) ∧
    step (sending (.wr 0 7) failed) = .next (after (step (sending (.wr 0 7) failed))) :=
  ⟨rfl, next_after (by decide +kernel), next_after (by decide +kernel)⟩

theorem witness_StageFlagsOfCompletedCommands :
    ∀ i : Instr, exec i trained = .next (after (exec i trained)) ∧ trained.status.fault = false ∧
      (i ≠ .unpack → (after (exec i trained)).status.fault = false) ∧
      exec .unpack (holding [0x02, 0xAF, 0xC0] 9) =
        .next (after (exec .unpack (holding [0x02, 0xAF, 0xC0] 9))) ∧
      (after (exec .unpack (holding [0x02, 0xAF, 0xC0] 9))).status.fault = false := by
  intro i
  refine ⟨next_after ?_, by decide +kernel, ?_, next_after (by decide +kernel), by decide +kernel⟩
  · revert i
    rintro (_ | _ | _ | _ | _ | _ | _) <;> decide +kernel
  · revert i
    rintro (_ | _ | _ | _ | _ | _ | _) <;> decide +kernel

/-- The header byte lands on a byte that held another value. -/
theorem witness_CommandsWriteOnlyTheDestination :
    let s : State := { trained with mem := cellPut trained.mem 0x100 0x00 }
    exec .pack s = .next (after (exec .pack s)) ∧
    (after (exec .pack s)).readByte 0x100 ≠ s.readByte 0x100 :=
  ⟨next_after (by decide +kernel), by decide +kernel⟩

theorem witness_CommandsReadOnlyTheSource :
    exec .pack trained = .next (after (exec .pack trained)) ∧
    ∀ a, trained.src.toNat ≤ a → a < trained.src.toNat + trained.slen.toNat →
      State.readByte { trained with mem := cellPut trained.mem 0x100 7 } a = trained.readByte a := by
  refine ⟨next_after (by decide +kernel), fun a _ ha => ?_⟩
  have h9 : trained.src.toNat + trained.slen.toNat = 9 := by decide +kernel
  have h := readByte_writeByte trained 0x100 a 7
  rw [if_neg (by omega)] at h
  exact h

theorem witness_OperandRegistersNeverWritten :
    exec .analyze prepared = .next (after (exec .analyze prepared)) := next_after (by decide +kernel)

theorem witness_TablesKeptByPackUnpackFackAndHostAccess :
    exec .pack trained = .next (after (exec .pack trained)) ∧
    (sending (.wr 14 0x200) trained).pending = .tx (.wr 14 0x200) :: [] ∧
    (∀ v : Word, Transaction.wr 14 0x200 ≠ .wr 0 v) ∧
    step (sending (.wr 14 0x200) trained) = .next (after (step (sending (.wr 14 0x200) trained))) :=
  ⟨next_after (by decide +kernel), rfl, by simp, next_after (by decide +kernel)⟩

theorem witness_StepKeepsTheInvariant :
    Inv (sending (.wr 0 5) trained) ∧
    step (sending (.wr 0 5) trained) = .next (after (step (sending (.wr 0 5) trained))) :=
  ⟨inv_trained.of_same (t := sending (.wr 0 5) trained) inv_trained.control.mem rfl,
    next_after (by decide +kernel)⟩

theorem witness_StepNeverStops : Inv trained := inv_trained

end Sys2Proof.Machine.Tests
end

section
/-! The statements of 00_scope.md, settled. -/

namespace Sys2Proof.Machine

/-- Settles O5: the length and bit order of `bits8`, and its two inverse laws, are the laws of R7. -/
theorem byteAndBitStringAreInverse : Obligations.ByteAndBitStringAreInverse := by
  unfold Obligations.ByteAndBitStringAreInverse
  refine ⟨fun v => ⟨bits8_length v, ?bitOrder⟩, byteOfBits_bits8, fun _ => bits8_byteOfBits⟩
  case bitOrder => exact fun _ hk => bits8_getElem? v hk

end Sys2Proof.Machine
end

section
/-! The statements of 10_state.md on the invariant, settled: one inversion of `exec` for all commands, then what
keeps the invariant (R25, R26, R36, R44, R60, R129, R144). -/

namespace Sys2Proof.Machine

variable {s t : State}

/-! ### What a command can do, all commands at once -/

/-- No fault, no stage flag and no table, everything else as in `s`: what CLEAR and reset make of the tables. -/
def State.wiped (s : State) : State :=
  ({ s.acknowledge with status := Status.reset }).emptyFreq.emptyTree.emptyCodes

/-- The next states of a command: its commit, under the tests it passed, or fault entry. -/
inductive Effect (s : State) : Instr → State → Prop
  | clear : Effect s .clear (s.wiped.setResult 0 0 0)
  | analyze (source : s.src.toNat + s.slen.toNat ≤ s.params.memSize) :
      Effect s .analyze (s.commitAnalyze s.sourceBytes)
  | build (stage : s.status.ftValid = true) : Effect s .build s.commitBuild
  | gencode {l : List RevEntry} (stage : s.status.treeValid = true)
      (assigned : codeList s.nodeAt s.nnodes.toNat s.root = some l) : Effect s .gencode (s.commitGencode l)
  | pack {p : Bits} (regions : RegionsOk s) (fits : (artifact p).length ≤ s.dcap.toNat) :
      Effect s .pack (packed s p)
  | unpack {u : Unframed} {out : List Symbol} (regions : RegionsOk s) (fits : out.length ≤ s.dcap.toNat) :
      Effect s .unpack (unpacked s u out)
  | fack : Effect s .fack s.acknowledge
  | fault (i : Instr) (r : Raised) : Effect s i (s.raise r)

theorem exec_effect {i : Instr} (h : exec i s = .next t) : Effect s i t := by
  cases i with
  | clear => exact Host.Outcome.next.inj h ▸ .clear
  | analyze =>
    obtain ⟨hs, rfl⟩ | ⟨_, rfl⟩ := execAnalyze_cases h
    · exact .analyze hs
    · exact .fault _ _
  | build =>
    obtain ⟨hf, rfl⟩ | ⟨_, rfl⟩ := execBuild_cases h
    · exact .build hf
    · exact .fault _ _
  | gencode =>
    obtain ⟨ht, l, hl, rfl⟩ | ⟨_, rfl⟩ := execGencode_cases h
    · exact .gencode ht hl
    · exact .fault _ _
  | pack =>
    obtain ⟨_, hr, p, _, hl, rfl⟩ | ⟨r, _, rfl⟩ := execPack_cases h
    · exact .pack hr hl
    · exact .fault _ _
  | unpack =>
    obtain ⟨_, hr, u, out, _, _, hl, rfl⟩ | ⟨r, _, rfl⟩ := execUnpack_cases h
    · exact .unpack hr hl
    · exact .fault _ _
  | fack => exact Host.Outcome.next.inj h ▸ .fack

/-! ### What the host's writes leave unchanged -/

theorem regWrite_frame (s : State) (r v : Word) :
    s.regWrite r v = { s with
      src := (s.regWrite r v).src, slen := (s.regWrite r v).slen, dst := (s.regWrite r v).dst
      dcap := (s.regWrite r v).dcap, tsel := (s.regWrite r v).tsel } := by
  unfold State.regWrite
  split <;> rfl

theorem hostMemWrite_frame (s : State) (a v : Word) :
    s.hostMemWrite a v = { s with mem := (s.hostMemWrite a v).mem } := by
  unfold State.hostMemWrite
  split <;> rfl

theorem hostMemWrite_wf (hm : Memory.wf s.params.memSize s.mem) (a v : Word) :
    Memory.wf s.params.memSize (s.hostMemWrite a v).mem := by
  unfold State.hostMemWrite
  split
  · next ha => exact wf_cellPut hm ha _
  · exact hm

/-! ### What keeps the invariant -/

theorem totalCount_nil : totalCount [] = 0 := by simp [totalCount, freqAt, cellGet]

theorem keyCount_nil : keyCount [] = 0 := by simp [keyCount, freqAt, cellGet]

/-- Without a flag and without tables only MEM_SIZE and MEM have anything to satisfy. -/
theorem inv_wiped (hp : WellFormed.params s.params = true) (hm : Memory.wf s.params.memSize s.mem) :
    Inv s.wiped where
  control :=
    { params := hp
      mem := hm
      treeStage := nofun
      codeStage := nofun
      noFault := fun _ => ⟨rfl, rfl⟩
      faultCode := nofun
      freqEmpty := fun _ => ⟨rfl, rfl⟩
      treeEmpty := fun _ => ⟨rfl, rfl, rfl⟩
      codesEmpty := fun _ => ⟨rfl, rfl⟩ }
  tables :=
    { freqForm := ⟨.nil, nofun⟩
      freqTotal := totalCount_nil ▸ Nat.zero_le _
      ndist := keyCount_nil.symm
      tree := nofun
      codes := nofun }

/-- Settles O49: the reset state has no flag and no table, and nothing written in MEM. -/
theorem invariantHoldsAtReset : Obligations.InvariantHoldsAtReset :=
  inv_wiped (s := State.reset) (by decide) ⟨.nil, nofun⟩

theorem Inv.resetEvent (h : Inv s) : Inv s.resetEvent :=
  inv_wiped (s := s.resetEvent) h.control.params ⟨.nil, nofun⟩

theorem Inv.acknowledge (h : Inv s) : Inv s.acknowledge := by
  obtain ⟨⟨params, mem, treeStage, codeStage, _, _, freqEmpty, treeEmpty, codesEmpty⟩,
    ⟨freqForm, freqTotal, ndist, tree, codes⟩⟩ := h
  exact ⟨⟨params, mem, treeStage, codeStage, fun _ => ⟨rfl, rfl⟩, nofun, freqEmpty, treeEmpty, codesEmpty⟩,
    ⟨freqForm, freqTotal, ndist, tree, codes⟩⟩

/-- The counts of a text that fits in MEM do not wrap (R36). -/
theorem Inv.commitAnalyze (h : Inv s) {text : List Symbol} (hl : text.length ≤ s.params.memSize) :
    Inv (s.commitAnalyze text) := by
  have hm := h.memSize_le
  have hlt : text.length < 2 ^ 32 := by omega
  refine
    { control :=
        { params := h.control.params
          mem := h.control.mem
          treeStage := nofun
          codeStage := nofun
          noFault := h.control.noFault
          faultCode := h.control.faultCode
          freqEmpty := nofun
          treeEmpty := fun _ => ⟨rfl, rfl, rfl⟩
          codesEmpty := fun _ => ⟨rfl, rfl⟩ }
      tables :=
        { freqForm := freqTable_form hlt
          freqTotal := ?total
          ndist := ?ndist
          tree := nofun
          codes := nofun } }
  case total =>
    rw [commitAnalyze_freq, totalCount_freqTable hlt]
    exact hl
  case ndist =>
    have hd := distinct_le (countText text)
    rw [commitAnalyze_ndist, commitAnalyze_freq, toNat_ofNat9 (by omega), keyCount_freqTable hlt]

/-- The tree of at most 256 leaves has at most 511 nodes: NNODES does not wrap (R126). -/
theorem Inv.commitBuild (h : Inv s) (hf : s.status.ftValid = true) : Inv s.commitBuild := by
  have hlen : (buildTree s.freq).length < 512 := by
    have := buildTree_length h.total_lt
    have := keyCount_le s.freq
    omega
  exact
    { control :=
        { params := h.control.params
          mem := h.control.mem
          treeStage := fun _ => hf
          codeStage := nofun
          noFault := h.control.noFault
          faultCode := h.control.faultCode
          freqEmpty := h.control.freqEmpty
          treeEmpty := nofun
          codesEmpty := fun _ => ⟨rfl, rfl⟩ }
      tables :=
        { freqForm := h.tables.freqForm
          freqTotal := h.tables.freqTotal
          ndist := h.tables.ndist
          tree := fun _ => ⟨rfl, toNat_ofNat9 hlen, rfl⟩
          codes := nofun } }

theorem Inv.commitGencode (h : Inv s) (ht : s.status.treeValid = true) {l : List RevEntry}
    (hl : Machine.codeList s.nodeAt s.nnodes.toNat s.root = some l) : Inv (s.commitGencode l) where
  control :=
    { params := h.control.params
      mem := h.control.mem
      treeStage := h.control.treeStage
      codeStage := fun _ => ht
      noFault := h.control.noFault
      faultCode := h.control.faultCode
      freqEmpty := h.control.freqEmpty
      treeEmpty := h.control.treeEmpty
      codesEmpty := nofun }
  tables :=
    { freqForm := h.tables.freqForm
      freqTotal := h.tables.freqTotal
      ndist := h.tables.ndist
      tree := h.tables.tree
      codes := fun _ => ⟨hl, rfl⟩ }

/-- Bytes written inside the destination region, and the result registers with them, keep the invariant. -/
theorem Inv.writeResult (h : Inv s) (hr : RegionsOk s) {bs : List Byte} (hl : bs.length ≤ s.dcap.toNat)
    (n l x : Nat) : Inv ((s.writeBytes s.dst.toNat bs).setResult n l x) := by
  have hd := hr.dst
  exact h.of_same (wf_memWriteBytes h.control.mem _ _ (by omega)) rfl

/-- Each effect of a command by its own law; a command that ends in a fault is `Inv.raise`. -/
theorem Inv.exec (h : Inv s) {i : Instr} (ht : Machine.exec i s = .next t) : Inv t := by
  cases exec_effect ht with
  | clear => exact (inv_wiped h.control.params h.control.mem).of_same h.control.mem rfl
  | analyze source => exact h.commitAnalyze (by rw [State.sourceBytes, readBytes_length]; omega)
  | build stage => exact h.commitBuild stage
  | gencode stage assigned => exact h.commitGencode stage assigned
  | pack regions fits => exact h.writeResult regions fits _ _ _
  | unpack regions fits => exact h.writeResult regions fits _ _ _
  | fack => exact h.acknowledge
  | fault _ r => exact h.raise r r.cause.code_bounds

/-! The host's other accesses touch only fields the invariant does not look at, and MEM within MEM_SIZE. -/

theorem Inv.takeEvent (h : Inv s) (rest : List HostEvent) : Inv (s.takeEvent rest) :=
  h.of_same h.control.mem rfl

theorem Inv.returning (h : Inv s) (v : Word) : Inv (s.returning v) := h.of_same h.control.mem rfl

theorem Inv.regWrite (h : Inv s) (r v : Word) : Inv (s.regWrite r v) := by
  rw [regWrite_frame]
  exact h.of_same h.control.mem rfl

theorem Inv.hostMemWrite (h : Inv s) (a v : Word) : Inv (s.hostMemWrite a v) := by
  have hm := hostMemWrite_wf h.control.mem a v
  rw [hostMemWrite_frame]
  exact h.of_same hm rfl

/-- Settles O50: after the event is taken, each of the ways of `step_cases` keeps the invariant. -/
theorem stepKeepsTheInvariant : Obligations.StepKeepsTheInvariant := by
  intro s t h hstep
  obtain ⟨_, rfl⟩ | ⟨rest, hcase⟩ := step_cases hstep
  case inl => exact h
  case inr =>
    have h' := h.takeEvent rest
    obtain ⟨_, rfl⟩ | ⟨w, i, _, _, hexec⟩ | ⟨w, _, _, rfl⟩ | ⟨w, _, _, rfl⟩ | ⟨r, v, _, rfl⟩ | ⟨v, rfl⟩ |
      ⟨a, v, _, rfl⟩ := hcase
    · exact h'.resetEvent
    · exact h'.exec hexec
    · exact h'
    · exact h'.raise _ (Cause.code_bounds _)
    · exact h'.regWrite r v
    · exact h'.returning v
    · exact h'.hostMemWrite a v

end Sys2Proof.Machine
end

section
/-! The statements of 10_state.md on the tree and the code tables, settled. -/

namespace Sys2Proof.Machine

/-! ### The shape of a built tree (R37) -/

/-- R37 (d) at the end of the merge loop, where only the last node has no owner. -/
theorem Forest.owned_of_root {leaves nodes : List Node} {e : Queued} (F : Forest leaves nodes [e]) :
    (childIndices nodes).Nodup ∧ ∀ j, j ∈ childIndices nodes ↔ j + 1 < nodes.length := by
  have hroot := last_is_root F
  have ho : (e.idx.toNat :: childIndices nodes).Perm (List.range nodes.length) := F.owned
  obtain ⟨hnot, hnd⟩ := List.nodup_cons.mp (ho.nodup_iff.mpr List.nodup_range)
  refine ⟨hnd, fun j => ⟨fun hj => ?_, fun hj => ?_⟩⟩
  · have hlt := List.mem_range.mp (ho.mem_iff.mp (List.mem_cons_of_mem _ hj))
    have hne : j ≠ e.idx.toNat := fun he => hnot (he ▸ hj)
    omega
  · have hm := ho.mem_iff.mpr (List.mem_range.mpr (by omega : j < nodes.length))
    exact (List.mem_cons.mp hm).resolve_left (by omega)

/-- R37 (f) at the end of the merge loop. -/
theorem Forest.root_freq {leaves nodes : List Node} {e : Queued} (F : Forest leaves nodes [e]) {n : Node}
    (hn : nodes[nodes.length - 1]? = some n) :
    n.freq.toNat = (leaves.map fun m => m.freq.toNat).sum := by
  have hroot := last_is_root F
  obtain ⟨m, hm, hf⟩ := F.entries e (List.mem_singleton.mpr rfl)
  rw [show e.idx.toNat = nodes.length - 1 by omega, hn, Option.some.injEq] at hm
  rw [hm, hf, ← F.total]
  simp

/-- R37 (b): the merge loop only appends internal nodes behind the leaves. -/
theorem Forest.leaf_iff {freq : Cells Count} {nodes : List Node} {q : List Queued}
    (F : Forest (leafNodes freq) nodes q) {i : Nat} {n : Node} (hn : nodes[i]? = some n) :
    n.leaf = true ↔ i < keyCount freq := by
  rw [← leafNodes_length]
  constructor
  · intro hl
    by_contra hi
    simp [F.inner i n (by omega) hn] at hl
  · intro hi
    rw [F.leaf_at hi] at hn
    exact (mem_leafNodes (List.mem_of_getElem? hn)).1

/-- Settles O26: the fields of `Forest` at the end of the merge loop are (b) to (f); the empty tree gives (a). -/
theorem treeShapeWhileTreeValid : Obligations.TreeShapeWhileTreeValid := by
  intro s h ht
  obtain ⟨hnode, hnn, hroot⟩ := h.tables.tree ht
  obtain ⟨q, F, _, hq⟩ := forest_buildTree h.total_lt
  have hat := h.nodeAt_eq ht
  have hnd := h.tables.ndist
  have hk := keyCount_le s.freq
  have hlen := buildTree_length h.total_lt
  rw [hnode] at hnn hroot
  have hzero : s.ndist = 0 ↔ keyCount s.freq = 0 := by rw [← hnd, BitVec.toNat_eq]; rfl
  exact
    { empty := fun h0 => by
        have hl : (buildTree s.freq).length = 0 := by have := hzero.mp h0; omega
        rw [hl] at hnn hroot
        exact ⟨BitVec.eq_of_toNat_eq hnn, hroot⟩
      size := fun h0 => by
        have hpos : keyCount s.freq ≠ 0 := fun hk0 => h0 (hzero.mpr hk0)
        rw [hnn, hroot, rootOf_toNat (by omega) (by omega)]
        omega
      leaves := fun i hi => by
        rw [hnn] at hi
        rw [hat, hnd]
        have hn := List.getElem?_eq_getElem hi
        exact ⟨_, hn, F.leaf_iff hn⟩
      ascending := fun i j m n hij hj hm hn => by
        rw [hnd, ← leafNodes_length] at hj
        rw [hat] at hm hn
        simp only [F.leaf_at hj, F.leaf_at (hij.trans hj)] at hm hn
        obtain ⟨hi', rfl⟩ := List.getElem?_eq_some_iff.mp hm
        obtain ⟨hj', rfl⟩ := List.getElem?_eq_some_iff.mp hn
        exact List.pairwise_iff_getElem.mp (leafNodes_ascending s.freq) i j hi' hj' hij
      smaller := fun i n hn hf => by
        rw [hat] at hn
        exact F.smaller i n hn hf
      owned := by
        rw [hnode, hnn]
        by_cases h0 : keyCount s.freq = 0
        · have hnil : buildTree s.freq = [] := List.eq_nil_of_length_eq_zero (by omega)
          simp [hnil, childIndices]
        · obtain ⟨e, rfl⟩ := List.length_eq_one_iff.mp (hq h0)
          exact F.owned_of_root
      sums := fun i n hn hf => by
        rw [hat] at hn ⊢
        exact F.sums i n hn hf
      total := fun n hn => by
        rw [hat] at hn
        have hne := (List.getElem?_eq_some_iff.mp hn).1
        obtain ⟨e, rfl⟩ := List.length_eq_one_iff.mp (hq (by omega))
        simp only [hroot, rootOf_toNat (n := (buildTree s.freq).length) (by omega) (by omega)] at hn
        rw [F.root_freq hn, sum_leafNodes] }

/-! ### The code tables (R41, R42) -/

/-- Settles O31: REV is what GENCODE makes of the tree of FREQ, whose codes stand in strict lexicographic order
for distinct symbols. -/
theorem codeTablesInverseAndPrefixFree : Obligations.CodeTablesInverseAndPrefixFree := by
  intro s h hc
  have hrev := h.revEntries_eq hc
  have ok := h.rev_ok hc
  have hsyms : s.rev.Pairwise fun e f => e.sym ≠ f.sym := List.pairwise_map.mp ok.symbols_nodup
  have hbits : s.rev.Pairwise fun e f => e.bits ≠ f.bits := ok.sorted.imp fun {e f} hlex (heq : e.bits = f.bits) =>
    (lexBefore_not_isPrefix hlex).1 (heq.symm ▸ List.prefix_rfl)
  exact
    { inverse := fun x p => hrev ▸ h.codeAt_iff hc x p
      once := hrev ▸ hsyms.and hbits
      prefixFree := by
        rw [hrev]
        exact fun e he f hf hne hp => hne (congrArg RevEntry.sym (ok.eq_of_isPrefix he hf hp))
      nonEmpty := hrev ▸ ok.nonEmpty }

end Sys2Proof.Machine
end

section
/-! What commands and host accesses leave alone (10_state.md R27, R31, R43, R47), settled. -/

namespace Sys2Proof.Machine

/-- Settles O47: no effect of a command touches these fields. -/
theorem operandRegistersNeverWritten : Obligations.OperandRegistersNeverWritten := by
  intro i s t h
  cases exec_effect h <;> exact ⟨rfl, rfl, rfl, rfl, rfl, rfl, rfl, rfl, rfl⟩

/-- A host access, once its event is taken, changes operand registers, TSEL, MEM and the reply only. -/
theorem step_access_frame {s t : State} {tr : Transaction} {rest : List HostEvent}
    (hp : s.pending = .tx tr :: rest) (hcmd : ∀ v, tr ≠ .wr 0 v) (h : step s = .next t) :
    t = { s with
      src := t.src, slen := t.slen, dst := t.dst, dcap := t.dcap, tsel := t.tsel
      mem := t.mem, pending := t.pending, reply := t.reply } := by
  have hno : ∀ w rest', s.pending ≠ .tx (.wr 0 w) :: rest' := by
    intro w rest' hw
    rw [hp] at hw
    exact hcmd w (HostEvent.tx.inj (List.cons.inj hw).1)
  obtain ⟨hnil, _⟩ | ⟨rest', hcase⟩ := step_cases h
  case inl => simp [hp] at hnil
  case inr =>
    obtain ⟨hr, _⟩ | ⟨w, _, hw, _⟩ | ⟨w, hw, _⟩ | ⟨w, hw, _⟩ | ⟨r, v, _, rfl⟩ | ⟨v, rfl⟩ | ⟨a, v, _, rfl⟩ := hcase
    · simp [hp] at hr
    · exact absurd hw (hno w rest')
    · exact absurd hw (hno w rest')
    · exact absurd hw (hno w rest')
    · rw [regWrite_frame]
      rfl
    · rfl
    · rw [hostMemWrite_frame]
      rfl

/-- Settles O48: the effects of PACK, UNPACK, FACK and of a fault write no table, and a host access is framed by
`step_access_frame`. -/
theorem tablesKeptByPackUnpackFackAndHostAccess : Obligations.TablesKeptByPackUnpackFackAndHostAccess := by
  refine ⟨fun i s t hi h => ?command, fun s t tr rest hp hcmd h => ?access⟩
  case command =>
    cases exec_effect h with
    | clear | analyze | build | gencode => simp at hi
    | pack | unpack | fack | fault => exact ⟨rfl, rfl, rfl, rfl, rfl, rfl, rfl⟩
  case access =>
    rw [step_access_frame hp hcmd h]
    exact ⟨rfl, rfl, rfl, rfl, rfl, rfl, rfl, rfl, rfl, rfl⟩

end Sys2Proof.Machine
end

section
/-! The host port of 10_state.md, settled: register numbers, STATUS, the code words and the table window. -/

namespace Sys2Proof.Machine

/-! ### Register numbers (R21, R46) -/

theorem regOfNumber_td (k : Fin 9) : regOfNumber (Reg.td k).number = some (.td k) := by
  revert k
  decide

/-- The number of a register is the one it is found under. -/
theorem number_of_regOfNumber {r : Word} {g : Reg} (h : regOfNumber r = some g) : g.number = r := by
  refine BitVec.eq_of_toNat_eq ?_
  unfold regOfNumber at h
  split at h
  case h_16 =>
    split at h
    · next hw =>
      obtain rfl := Option.some.inj h
      simp only [Reg.number, BitVec.toNat_ofNat]
      omega
    · simp at h
  all_goals
    next hr =>
    obtain rfl := Option.some.inj h
    rw [hr]
    rfl

theorem regOfNumber_eq_none_iff (r : Word) : regOfNumber r = none ↔ r = 15 ∨ 25 ≤ r.toNat := by
  rw [BitVec.toNat_eq, show (15 : Word).toNat = 15 from rfl]
  unfold regOfNumber
  split
  case h_16 =>
    split
    · next hw => exact iff_of_false (by simp) (by omega)
    · next hw =>
      refine iff_of_true rfl ?_
      simp only [imp_false] at *
      omega
  all_goals
    next hr => simp [hr]

/-- Settles O11: each register by its number, each number by the branches of `regOfNumber`. -/
theorem registerNumbersAreTheMap : Obligations.RegisterNumbersAreTheMap := by
  refine ⟨fun g => ?_, fun r g => number_of_regOfNumber, regOfNumber_eq_none_iff⟩
  cases g with
  | td k => exact regOfNumber_td k
  | _ => rfl

/-! ### STATUS (R23) -/

/-- Settles O15: the flags are the four lowest binary digits of the sum in `Status.word`, and it has no more. -/
theorem statusWordBits : Obligations.StatusWordBits := by
  rintro ⟨f, t, c, d⟩ k
  have hbits : f.toNat + 2 * t.toNat + 4 * c.toNat + 8 * d.toNat =
      Nat.bit f (Nat.bit t (Nat.bit c (Nat.bit d 0))) := by
    simp only [Nat.bit_val]
    omega
  rw [Status.word, BitVec.getLsbD_ofNat, hbits]
  match k with
  | 0 | 1 | 2 | 3 => simp [Nat.testBit_bit_succ]
  | k + 4 => simp [Nat.testBit_bit_succ]

/-! ### Code words (R39) -/

/-- Bit m of a code word, counted from its top, is that bit of the code, 0 beyond its end. -/
theorem codeWord_getLsbD (p : Bits) (j : Nat) {m : Nat} (hm : m < 32) :
    (codeWord p j).getLsbD (31 - m) = p.getD (32 * j + m) false := by
  have h := natOfBits_testBit ((List.range 32).map fun m => p.getD (32 * j + m) false) m (by simpa using hm)
  simp only [List.length_map, List.length_range, List.getElem_map, List.getElem_range] at h
  rw [codeWord, BitVec.getLsbD_ofNat, ← h, decide_eq_true (by omega), Bool.true_and]

/-- Settles O17: position k of a code is bit k mod 32 of word k div 32, counted from the top. -/
theorem codeWordsAreLeftAligned : Obligations.CodeWordsAreLeftAligned := by
  intro p k _ _
  rw [codeWord_getLsbD p _ (Nat.mod_lt k (by decide)), Nat.div_add_mod, List.getD_eq_getElem?_getD]

/-! ### Fields side by side in a word -/

/-- Two fields that do not overlap, put into one word. -/
theorem toNat_or_of_disjoint {x y : Word} (i : Nat) (hx : 2 ^ i ∣ x.toNat) (hy : y.toNat < 2 ^ i) :
    (x ||| y).toNat = x.toNat + y.toNat := by
  obtain ⟨a, ha⟩ := hx
  rw [BitVec.toNat_or, ha, Nat.two_pow_add_eq_or_of_lt hy]

/-- A field of at most 16 bits from bit 16 on. -/
theorem toNat_field16 {n : Nat} (hn : n ≤ 16) (x : BitVec n) :
    (x.setWidth 32 <<< 16).toNat = 2 ^ 16 * x.toNat := by
  have hx : x.toNat < 2 ^ 16 := x.isLt.trans_le (Nat.pow_le_pow_right (by decide) hn)
  rw [BitVec.toNat_shiftLeft, BitVec.toNat_setWidth, Nat.shiftLeft_eq]
  omega

theorem toNat_lenField {p : Bits} (hp : p.length ≤ 255) : (lenField p).toNat = p.length := by
  simp only [lenField, BitVec.toNat_setWidth, BitVec.toNat_ofNat]
  omega

/-! ### The table window (R31, R32) -/

/-- TSEL.INDEX and TSEL.TABLE as the quotient and rest of TSEL by 512. -/
theorem tsel_fields {s : State} {i t : Nat} (hi : i < 512) (h : s.tsel.toNat = 512 * t + i) :
    s.tselIndex = i ∧ s.tselTable.toNat = t := by
  have hlt := s.tsel.isLt
  simp only [State.tselIndex, State.tselTable, BitVec.extractLsb'_toNat, Nat.shiftRight_eq_div_pow, h]
  omega

/-- The view that TSEL selects. -/
theorem window_eq_view {s : State} {i t : Nat} (hi : i < 512) (h : s.tsel.toNat = 512 * t + i) (k : Fin 9) :
    (t = 0 ∧ s.window k = s.freqView i k) ∨ (t = 1 ∧ s.window k = s.nodeView i k) ∨
      (t = 2 ∧ s.window k = s.codeView i k) ∨ (t = 3 ∧ s.window k = s.revView i k) := by
  obtain ⟨hidx, htab⟩ := tsel_fields hi h
  have ht : t < 4 := by
    have := s.tsel.isLt
    omega
  simp only [State.window, hidx, htab]
  obtain rfl | rfl | rfl | rfl : t = 0 ∨ t = 1 ∨ t = 2 ∨ t = 3 := by omega
  · exact .inl ⟨rfl, rfl⟩
  · exact .inr (.inl ⟨rfl, rfl⟩)
  · exact .inr (.inr (.inl ⟨rfl, rfl⟩))
  · exact .inr (.inr (.inr ⟨rfl, rfl⟩))

theorem freqView_shown (s : State) {i : Nat} (hi : i ≤ 255) {k : Fin 9} (hk : k.val = 0) :
    s.freqView i k = freqAt s.freq (BitVec.ofNat 8 i) := if_pos ⟨hi, hk⟩

theorem freqView_hidden (s : State) {i : Nat} {k : Fin 9} (h : 255 < i ∨ 0 < k.val) :
    s.freqView i k = 0 := if_neg (by omega)

theorem freqView_empty {s : State} (h : s.freq = []) (i : Nat) (k : Fin 9) : s.freqView i k = 0 := by
  simp [State.freqView, h, freqAt, cellGet]

/-- The words of R32 for a node. -/
theorem nodeView_shown {s : State} {i : Nat} {n : Node} (h : s.nodeAt i = some n) (k : Fin 9) :
    (k.val = 0 → (s.nodeView i k).toNat = 2 ^ 31 + (if n.leaf then 2 ^ 30 else 0) + n.sym.toNat) ∧
    (k.val = 1 → s.nodeView i k = n.freq) ∧
    (k.val = 2 → (s.nodeView i k).toNat = n.left.toNat + 2 ^ 16 * n.right.toNat) ∧
    (3 ≤ k.val → s.nodeView i k = 0) := by
  simp only [State.nodeView, h]
  refine ⟨fun hk => ?valid, fun hk => by simp [hk], fun hk => ?children, fun hk => ?rest⟩
  case valid =>
    have hs : (n.sym.setWidth 32).toNat = n.sym.toNat := BitVec.toNat_setWidth_of_le (by decide)
    simp only [hk]
    rw [toNat_or_of_disjoint 8 (by cases n.leaf <;> decide) (hs ▸ n.sym.isLt), hs]
    cases n.leaf <;> rfl
  case children =>
    have hl : (n.left.setWidth 32).toNat = n.left.toNat := BitVec.toNat_setWidth_of_le (by decide)
    have hr := toNat_field16 (by decide) n.right
    have hlt := n.left.isLt
    simp only [hk]
    rw [BitVec.or_comm, toNat_or_of_disjoint 16 (by omega) (by omega), hr, hl, Nat.add_comm]
  case rest =>
    split
    · omega
    · omega
    · omega
    · rfl

theorem nodeView_hidden {s : State} {i : Nat} (h : s.nodeAt i = none) (k : Fin 9) :
    s.nodeView i k = 0 := by
  simp [State.nodeView, h]

theorem nodeAt_of_le {s : State} {i : Nat} (h : s.nnodes.toNat ≤ i) : s.nodeAt i = none :=
  if_neg (by omega)

/-- The words of R32 for a valid entry of CODE. -/
theorem codeView_shown {s : State} {i : Nat} {p : Bits} (hi : i ≤ 255)
    (h : codeAt s.code (BitVec.ofNat 8 i) = some p) (hp : p.length ≤ 255) (k : Fin 9) :
    (k.val = 0 → (s.codeView i k).toNat = 2 ^ 31 + p.length) ∧
    (1 ≤ k.val → s.codeView i k = codeWord p (k.val - 1)) := by
  simp only [State.codeView, if_pos hi, h]
  refine ⟨fun hk => ?_, fun hk => if_neg (by omega)⟩
  have hl := toNat_lenField hp
  rw [if_pos hk, toNat_or_of_disjoint 8 (by decide) (by omega), hl]
  rfl

theorem codeView_hidden {s : State} {i : Nat} (h : 255 < i ∨ codeAt s.code (BitVec.ofNat 8 i) = none)
    (k : Fin 9) : s.codeView i k = 0 := by
  rcases h with h | h
  · simp only [State.codeView, if_neg (Nat.not_le.mpr h)]
  · simp only [State.codeView, h, ite_self]

/-- The words of R32 for an entry of REV. -/
theorem revView_shown {s : State} {i : Nat} {e : RevEntry} (hi : i < s.ndist.toNat)
    (hc : s.status.ctValid = true) (h : s.rev[i]? = some e) (hp : e.bits.length ≤ 255) (k : Fin 9) :
    (k.val = 0 → (s.revView i k).toNat = 2 ^ 31 + 2 ^ 16 * e.sym.toNat + e.bits.length) ∧
    (1 ≤ k.val → s.revView i k = codeWord e.bits (k.val - 1)) := by
  have he : s.revEntries[i]? = some e := by rw [State.revEntries, List.getElem?_take_of_lt hi, h]
  simp only [State.revView, if_pos hc, he]
  refine ⟨fun hk => ?_, fun hk => if_neg (by omega)⟩
  have hl := toNat_lenField hp
  have hsym := toNat_field16 (by decide) e.sym
  have hlt := e.sym.isLt
  have hhigh : (((0x80000000 : Nat) : Word) ||| (e.sym.setWidth 32 <<< 16)).toNat = 2 ^ 31 + 2 ^ 16 * e.sym.toNat := by
    rw [toNat_or_of_disjoint 31 (by decide) (by omega), hsym]
    rfl
  rw [if_pos hk, toNat_or_of_disjoint 16 (by rw [hhigh]; omega) (by omega), hhigh, hl]

theorem revView_hidden {s : State} {i : Nat} (h : s.ndist.toNat ≤ i ∨ s.status.ctValid = false)
    (k : Fin 9) : s.revView i k = 0 := by
  rcases h with h | h
  · have he : s.revEntries[i]? = none := List.getElem?_eq_none (by simp [State.revEntries]; omega)
    simp only [State.revView, he, ite_self]
  · simp [State.revView, h]

/-- Settles O16: TSEL selects one of the four views, each shown and hidden as R32 says, and hidden where its
stage flag is clear because the invariant keeps its table empty. -/
theorem windowShowsTheSelectedEntry : Obligations.WindowShowsTheSelectedEntry := by
  intro s k i t hi htsel
  obtain ⟨rfl, hw⟩ | ⟨rfl, hw⟩ | ⟨rfl, hw⟩ | ⟨rfl, hw⟩ := window_eq_view hi htsel k <;> rw [hw]
  case inl =>
    refine ⟨fun _ => ⟨fun hi' hk => freqView_shown s hi' hk, fun h => freqView_hidden s h⟩, nofun, nofun, nofun, fun h hclear => ?_⟩
    have hf : s.status.ftValid = false := by simpa using hclear
    exact freqView_empty (h.control.freqEmpty hf).1 i k
  case inr.inl =>
    refine ⟨nofun, fun _ => ⟨fun n hn => nodeView_shown hn k, fun hn => nodeView_hidden (nodeAt_of_le hn) k⟩,
      nofun, nofun, fun h hclear => ?_⟩
    have hf : s.status.treeValid = false := by simpa using hclear
    obtain ⟨_, hn, _⟩ := h.control.treeEmpty hf
    exact nodeView_hidden (nodeAt_of_le (by simp [hn])) k
  case inr.inr.inl =>
    refine ⟨nofun, nofun, fun _ => ⟨fun p hi' hp hl => codeView_shown hi' hp hl k, fun h => codeView_hidden h k⟩,
      nofun, fun h hclear => ?_⟩
    have hf : s.status.ctValid = false := by simpa using hclear
    obtain ⟨hcode, _⟩ := h.control.codesEmpty hf
    exact codeView_hidden (.inr (by simp [hcode, codeAt, cellGet])) k
  case inr.inr.inr =>
    refine ⟨nofun, nofun, nofun,
      fun _ => ⟨fun e hi' hc he hl => revView_shown hi' hc he hl k, fun h => revView_hidden h k⟩, fun h hclear => ?_⟩
    have hf : s.status.ctValid = false := by simpa using hclear
    exact revView_hidden (.inr hf) k

/-! ### Reset (R48) -/

theorem reset_window (k : Fin 9) : State.reset.window k = 0 := freqView_empty rfl 0 k

theorem td_number_ne_root (k : Fin 9) : (Reg.td k).number ≠ Reg.root.number := by
  revert k
  decide

/-- Settles O19: the registers by name, the window as a view of the empty FREQ; an unmapped number is not 13. -/
theorem resetValues : Obligations.ResetValues := by
  refine ⟨fun r => ?registers, rfl, fun _ => rfl, fun _ => rfl, fun _ => rfl, rfl⟩
  unfold State.regRead
  cases hg : regOfNumber r with
  | none =>
    refine (if_neg ?_).symm
    rintro rfl
    simp [regOfNumber] at hg
  | some g =>
    rw [← number_of_regOfNumber hg]
    cases g with
    | td k => exact (reset_window k).trans (if_neg (td_number_ne_root k)).symm
    | _ => rfl

end Sys2Proof.Machine
end

section
/-! The statements of 20_memory.md, settled: the host's accesses to MEM (R65), and what the commands write and read
of it (R62). -/

namespace Sys2Proof.Machine

variable {s t t' : State} {m : Memory}

/-! ### The host's accesses (R65) -/

theorem step_mr {a : Word} {rest : List HostEvent} (hp : s.pending = .tx (.mr a) :: rest) :
    step s = .next { s with pending := rest, reply := some (s.hostMemRead a) } := by
  simp only [step, hp, transact]
  rfl

theorem step_mw {a v : Word} {rest : List HostEvent} (hp : s.pending = .tx (.mw a v) :: rest) :
    step s = .next ((s.takeEvent rest).hostMemWrite a v) := by
  simp only [step, hp, transact]

theorem hostMemRead_inside {a : Word} (ha : a.toNat < s.params.memSize) :
    (s.hostMemRead a).toNat = (s.readByte a.toNat).toNat := by
  rw [State.hostMemRead, if_pos ha, BitVec.toNat_setWidth_of_le (by decide)]

theorem hostMemRead_outside {a : Word} (ha : s.params.memSize ≤ a.toNat) : s.hostMemRead a = 0 :=
  if_neg (Nat.not_lt.mpr ha)

theorem hostMemWrite_inside {a : Word} (v : Word) (ha : a.toNat < s.params.memSize) :
    s.hostMemWrite a v = s.writeByte a.toNat (v.extractLsb' 0 8) := by
  rw [State.hostMemWrite, if_pos ha, BitVec.setWidth_eq_extractLsb' (by decide)]

theorem hostMemWrite_outside {a : Word} (v : Word) (ha : s.params.memSize ≤ a.toNat) : s.hostMemWrite a v = s :=
  if_neg (Nat.not_lt.mpr ha)

/-- Settles O14: one access on each side of MEM_SIZE, the byte written by `readByte_writeByte`. -/
theorem hostMemoryAccess : Obligations.HostMemoryAccess := by
  refine ⟨fun s a rest hp => ⟨_, step_mr hp, hostMemRead_inside, hostMemRead_outside⟩,
    fun s a v rest hp => ⟨fun ha => ?inside, fun ha => ?outside⟩⟩
  case inside =>
    rw [step_mw hp, hostMemWrite_inside (s := s.takeEvent rest) v ha]
    exact ⟨_, rfl, fun b => readByte_writeByte s a.toNat b _⟩
  case outside =>
    rw [step_mw hp, hostMemWrite_outside (s := s.takeEvent rest) v ha]
    rfl

/-! ### What a command writes (R62) -/

/-- A byte that the writes of a PACK or UNPACK change lies among the RLEN bytes at DST. -/
theorem writeResult_changes {bs : List Byte} {n x a : Nat} (hl : bs.length ≤ s.dcap.toNat)
    (ha : ((s.writeBytes s.dst.toNat bs).setResult bs.length n x).readByte a ≠ s.readByte a) :
    s.dst.toNat ≤ a ∧ a < s.dst.toNat + (BitVec.ofNat 32 bs.length).toNat ∧
      (BitVec.ofNat 32 bs.length).toNat ≤ s.dcap.toNat := by
  have hlen : (BitVec.ofNat 32 bs.length).toNat = bs.length := by
    rw [BitVec.toNat_ofNat, Nat.mod_eq_of_lt (lt_of_le_of_lt hl s.dcap.isLt)]
  obtain ⟨hlow, hhigh⟩ : s.dst.toNat ≤ a ∧ a < s.dst.toNat + bs.length := by
    by_contra hout
    exact ha ((readByte_writeBytes s s.dst.toNat bs a).trans (dif_neg hout))
  rw [hlen]
  exact ⟨hlow, hhigh, hl⟩

/-- Settles O45: only the effects of PACK and UNPACK write MEM, and only at DST. -/
theorem commandsWriteOnlyTheDestination : Obligations.CommandsWriteOnlyTheDestination := by
  intro i s t h a ha
  cases exec_effect h with
  | clear | analyze | build | gencode | fack | fault => exact absurd rfl ha
  | pack _ fits => exact ⟨.inl rfl, writeResult_changes fits ha⟩
  | unpack _ fits => exact ⟨.inr rfl, writeResult_changes fits ha⟩

/-! ### What a command reads (R62)

Both runs of a command meet the same tests and lay the same bytes at DST, one on MEM and one on another memory. -/

/-- The same state over another memory. -/
def State.withMem (s : State) (m : Memory) : State := { s with mem := m }

@[simp] theorem withMem_status (s : State) (m : Memory) : (s.withMem m).status = s.status := rfl
@[simp] theorem withMem_code (s : State) (m : Memory) : (s.withMem m).code = s.code := rfl
@[simp] theorem withMem_revEntries (s : State) (m : Memory) : (s.withMem m).revEntries = s.revEntries := rfl
@[simp] theorem withMem_checkSource (s : State) (m : Memory) : (s.withMem m).checkSource = s.checkSource := rfl
@[simp] theorem withMem_checkRegions (s : State) (m : Memory) :
    (s.withMem m).checkRegions = s.checkRegions := rfl

/-- `t'` is `t` with the bytes that went from `s` to `t` laid on the memory `m` in place of that of `s`. -/
def Replayed (s : State) (m : Memory) (t t' : State) : Prop :=
  ∃ bs, t.mem = memWriteBytes s.mem s.dst.toNat bs ∧ t' = t.withMem (memWriteBytes m s.dst.toNat bs)

/-- The results of one pseudocode on `s` and on `s` over `m`. -/
inductive Alike (s : State) (m : Memory) : Except Raised State → Except Raised State → Prop
  | ok {u u' : State} (h : Replayed s m u u') : Alike s m (.ok u) (.ok u')
  | error (r : Raised) : Alike s m (.error r) (.error r)

/-- A command that writes no byte. -/
theorem Replayed.of_mem_eq (h : t.mem = s.mem) : Replayed s m t (t.withMem m) := ⟨[], h, rfl⟩

theorem Alike.finish {e e' : Except Raised State} (hr : Alike s m e e') (h : s.finish e = .next t) :
    ∃ t', (s.withMem m).finish e' = .next t' ∧ Replayed s m t t' := by
  cases hr with
  | ok hr => exact ⟨_, rfl, Host.Outcome.next.inj h ▸ hr⟩
  | error r => exact ⟨_, rfl, Host.Outcome.next.inj h ▸ .of_mem_eq rfl⟩

theorem sourceBytes_withMem
    (h : ∀ a, s.src.toNat ≤ a → a < s.src.toNat + s.slen.toNat → (s.withMem m).readByte a = s.readByte a) :
    (s.withMem m).sourceBytes = s.sourceBytes := readBytes_congr h

/-- The commit of PACK or UNPACK: DCAP is the same in both runs. -/
theorem writeResult_alike (s : State) (m : Memory) (bs : List Byte) (n x : Nat) (r : Raised) :
    Alike s m
      (if s.dcap.toNat < bs.length then .error r
        else .ok ((s.writeBytes s.dst.toNat bs).setResult bs.length n x))
      (if s.dcap.toNat < bs.length then .error r
        else .ok (((s.withMem m).writeBytes s.dst.toNat bs).setResult bs.length n x)) := by
  split
  · exact .error r
  · exact .ok ⟨bs, rfl, rfl⟩

theorem execAnalyze_replayed (hsrc : (s.withMem m).sourceBytes = s.sourceBytes) (h : execAnalyze s = .next t) :
    ∃ t', execAnalyze (s.withMem m) = .next t' ∧ Replayed s m t t' := by
  refine Alike.finish ?_ h
  rw [hsrc, withMem_checkSource]
  cases s.checkSource with
  | error r => exact .error r
  | ok _ => exact .ok (.of_mem_eq rfl)

theorem execBuild_replayed (h : execBuild s = .next t) :
    ∃ t', execBuild (s.withMem m) = .next t' ∧ Replayed s m t t' := by
  refine Alike.finish ?_ h
  rw [withMem_status]
  cases needStage s.status.ftValid .build with
  | error r => exact .error r
  | ok _ => exact .ok (.of_mem_eq rfl)

theorem execGencode_replayed (h : execGencode s = .next t) :
    ∃ t', execGencode (s.withMem m) = .next t' ∧ Replayed s m t t' := by
  obtain ⟨ht, l, hl, rfl⟩ | ⟨ht, rfl⟩ := execGencode_cases h
  · exact ⟨_, execGencode_completes (s := s.withMem m) ht hl, .of_mem_eq rfl⟩
  · refine ⟨_, ?_, .of_mem_eq rfl⟩
    rw [execGencode, withMem_status, ht]
    rfl

theorem execPack_replayed (hsrc : (s.withMem m).sourceBytes = s.sourceBytes) (h : execPack s = .next t) :
    ∃ t', execPack (s.withMem m) = .next t' ∧ Replayed s m t t' := by
  refine Alike.finish ?_ h
  rw [hsrc, withMem_status, withMem_code, withMem_checkRegions]
  cases needStage s.status.ctValid .pack with
  | error r => exact .error r
  | ok _ =>
    cases s.checkRegions with
    | error r => exact .error r
    | ok _ =>
      cases encodeText s.code 0 s.sourceBytes with
      | error r => exact .error r
      | ok p => exact writeResult_alike s m (artifact p) _ _ _

theorem execUnpack_replayed (hsrc : (s.withMem m).sourceBytes = s.sourceBytes) (h : execUnpack s = .next t) :
    ∃ t', execUnpack (s.withMem m) = .next t' ∧ Replayed s m t t' := by
  refine Alike.finish ?_ h
  rw [hsrc, withMem_status, withMem_revEntries, withMem_checkRegions]
  cases needStage s.status.ctValid .unpack with
  | error r => exact .error r
  | ok _ =>
    cases s.checkRegions with
    | error r => exact .error r
    | ok _ =>
      cases unframe s.sourceBytes with
      | error r => exact .error r
      | ok u =>
        dsimp only
        cases decodeBits s.revEntries 0 0 [] u.payload with
        | error r => exact .error r
        | ok out => exact writeResult_alike s m out _ _ _

theorem exec_replayed {i : Instr} (h : exec i s = .next t)
    (hsrc : i = .analyze ∨ i = .pack ∨ i = .unpack → (s.withMem m).sourceBytes = s.sourceBytes) :
    ∃ t', exec i (s.withMem m) = .next t' ∧ Replayed s m t t' := by
  cases i with
  | clear | fack => exact ⟨_, rfl, Host.Outcome.next.inj h ▸ .of_mem_eq rfl⟩
  | analyze => exact execAnalyze_replayed (hsrc (.inl rfl)) h
  | build => exact execBuild_replayed h
  | gencode => exact execGencode_replayed h
  | pack => exact execPack_replayed (hsrc (.inr (.inl rfl))) h
  | unpack => exact execUnpack_replayed (hsrc (.inr (.inr rfl))) h

/-- After the same bytes are laid on two memories, a byte is one of those or as it was in each. -/
theorem Replayed.readByte (h : Replayed s m t t') (he : t.memEpoch = s.memEpoch) (a : Nat) :
    t'.readByte a = t.readByte a ∨ (t'.readByte a = (s.withMem m).readByte a ∧ t.readByte a = s.readByte a) := by
  obtain ⟨bs, hmem, rfl⟩ := h
  have ht : t.readByte a = (s.writeBytes s.dst.toNat bs).readByte a :=
    readByte_congr (s := s.writeBytes s.dst.toNat bs) hmem he a
  have ht' : (t.withMem (memWriteBytes m s.dst.toNat bs)).readByte a =
      ((s.withMem m).writeBytes s.dst.toNat bs).readByte a :=
    readByte_congr (t := t.withMem _) (s := (s.withMem m).writeBytes s.dst.toNat bs) rfl he a
  rw [ht, ht', readByte_writeBytes, readByte_writeBytes]
  by_cases hin : s.dst.toNat ≤ a ∧ a < s.dst.toNat + bs.length
  · left
    rw [dif_pos hin, dif_pos hin]
  · right
    rw [dif_neg hin, dif_neg hin]
    exact ⟨rfl, rfl⟩

/-- Settles O46: the source decides what a command lays on MEM, whatever else MEM holds. -/
theorem commandsReadOnlyTheSource : Obligations.CommandsReadOnlyTheSource := by
  intro i s t m h hsrc
  obtain ⟨t', ht', hr⟩ := exec_replayed h fun hi => sourceBytes_withMem (hsrc hi)
  obtain ⟨_, _, _, _, _, _, hepoch, _⟩ := operandRegistersNeverWritten i s t h
  have hbytes := hr.readByte hepoch
  obtain ⟨bs, _, rfl⟩ := hr
  exact ⟨_, ht', hbytes⟩

end Sys2Proof.Machine
end

section
/-! The statements of 30_encoding.md on command words and on the transaction record, settled. -/

namespace Sys2Proof

/-! ### Illegal words (R87, R90) -/

theorem commandOfOpcode_eq_none {n : Nat} (h : n = 0 ∨ 8 ≤ n) : commandOfOpcode n = none := by
  refine Option.eq_none_iff_forall_ne_some.mpr fun i hi => ?_
  have hn := (commandOfOpcode_iff n i).mp hi
  have hbounds : 1 ≤ (opcode i).toNat ∧ (opcode i).toNat ≤ 7 := by cases i <;> decide
  omega

theorem decode_of_reserved {w : Word} (h : w.extractLsb' 8 24 ≠ 0) : decode w = .illegal .reservedNotZero :=
  if_neg h

theorem decode_of_unassigned {w : Word} (hr : w.extractLsb' 8 24 = 0)
    (ho : (w.extractLsb' 0 8).toNat = 0 ∨ 8 ≤ (w.extractLsb' 0 8).toNat) :
    decode w = .illegal .opcodeUnassigned := by
  have hop : commandOfOpcode (opField w).toNat = none := commandOfOpcode_eq_none ho
  rw [decode, rsvField, if_pos hr, hop]

/-- The three kinds of illegal word of R90, without the reason. -/
theorem decode_illegal_of_fields {w : Word}
    (h : w.extractLsb' 8 24 ≠ 0 ∨ (w.extractLsb' 0 8).toNat = 0 ∨ 8 ≤ (w.extractLsb' 0 8).toNat) :
    ∃ why, decode w = .illegal why := by
  by_cases hr : w.extractLsb' 8 24 = 0
  · exact ⟨_, decode_of_unassigned hr (h.resolve_left (not_not_intro hr))⟩
  · exact ⟨_, decode_of_reserved hr⟩

/-- Settles O1: a command by its word, an illegal word by the field that makes it one. -/
theorem opcodeMapWordsDecode : Obligations.OpcodeMapWordsDecode := by
  refine ⟨?_, ?_, ?_, ?_, ?_, ?_, ?_, ?_, ?_, ?_, ?_, ?_, ?_⟩
  iterate 7 exact (decode_iff _ _).mpr rfl
  iterate 3 exact decode_of_unassigned rfl (by decide)
  iterate 3 exact decode_of_reserved (by decide)

/-- Settles O3: no command is refused as ill-formed, and each is what its own word decodes to. -/
theorem decodeOfEncodeIsTheCommand : Obligations.DecodeOfEncodeIsTheCommand :=
  fun i _ => (decode_iff _ i).mpr rfl

/-! ### The opcode table (R87) -/

theorem encode_injective {i j : Instr} (h : encode i = encode j) : i = j :=
  Decoded.command.inj (((decode_iff _ i).mpr rfl).symm.trans ((decode_iff _ j).mpr h))

/-- Every mask takes the whole word, and every match is the word of the row's command. -/
theorem opcodeTable_hit_iff {r : OpcodeRow} (hr : r ∈ opcodeTable) (w : Word) :
    w &&& r.mask = r.pattern ↔ w = encode r.command := by
  have hrow : ∀ r ∈ opcodeTable, r.mask = BitVec.allOnes 32 ∧ r.pattern = encode r.command := by decide
  obtain ⟨hmask, hpattern⟩ := hrow r hr
  rw [hmask, hpattern, BitVec.and_allOnes]

theorem opcodeTable_has_row (i : Instr) : ∃ r ∈ opcodeTable, r.command = i := by
  cases i <;> decide

/-- Settles O2: by the fields for illegal words, by `decode_iff` for commands, and the rows of the table are
the seven command words. -/
theorem decoderIsExactAndAgreesWithTheTable : Obligations.DecoderIsExactAndAgreesWithTheTable := by
  refine ⟨fun w hr => ⟨_, decode_of_reserved hr⟩, fun w hr ho => ⟨_, decode_of_unassigned hr ho⟩,
    fun w i => ?words, fun r hr w => ?rows, fun w => ?noOverlap, fun w hnone => ?noRow⟩
  case words =>
    rw [decode_iff]
    cases i <;> rfl
  case rows => rw [decode_iff, opcodeTable_hit_iff hr]
  case noOverlap =>
    have hdistinct : opcodeTable.Pairwise fun r q => r.command ≠ q.command := by decide
    refine hdistinct.imp_of_mem fun hr hq hne hboth => hne (encode_injective ?_)
    exact ((opcodeTable_hit_iff hr w).mp hboth.1).symm.trans ((opcodeTable_hit_iff hq w).mp hboth.2)
  case noRow =>
    refine decode_illegal fun i hw => ?_
    obtain ⟨r, hr, rfl⟩ := opcodeTable_has_row i
    exact hnone r hr ((opcodeTable_hit_iff hr w).mpr hw)

namespace Machine

/-! ### Illegal words on CMD (R90, R191, R217) -/

theorem command_of_illegal {w : Word} {why : DecodeReject} (h : decode w = .illegal why) {s : State}
    (hf : s.status.fault = false) : command w s = .next (s.illegalCommand w) := by
  simp only [command, takeCommand, hf, h]

theorem command_of_illegal_dropped {w : Word} {why : DecodeReject} (h : decode w = .illegal why) {s : State}
    (hf : s.status.fault = true) : command w s = .next s := by
  simp only [command, takeCommand, hf, h]

/-- Settles O10: the word is illegal by its fields; ILLEGAL_CMD is code 1. -/
theorem illegalWordFaults : Obligations.IllegalWordFaults := by
  intro s w rest hp hfields
  obtain ⟨why, hill⟩ := decode_illegal_of_fields hfields
  rw [step_wr_cmd hp]
  exact ⟨command_of_illegal (s := s.takeEvent rest) hill,
    command_of_illegal_dropped (s := s.takeEvent rest) hill⟩

/-! ### The transaction record and the pseudo-commands (R80, R102) -/

/-- Settles O4: each transaction by its kind. -/
theorem transactionRecordRoundTrip : Obligations.TransactionRecordRoundTrip := by
  refine ⟨fun r v => ⟨rfl, rfl, rfl, rfl, rfl, rfl⟩, fun a d => ⟨rfl, rfl, rfl, rfl⟩, fun t => ?roundTrip⟩
  case roundTrip => cases t <;> rfl

/-- Settles O18: the words of ANALYZE, BUILD, GENCODE and PACK, and that of UNPACK. -/
theorem pseudoCommandsExpand : Obligations.PseudoCommandsExpand := ⟨rfl, rfl⟩

end Machine

end Sys2Proof
end

section
/-! The statements of 30_encoding.md on the artifact and on RD and WR, settled. -/

namespace Sys2Proof.Machine

/-! ### Bits of an artifact (R94 to R98) -/

/-- Bit n of a bit string read from bytes is bit 7 − (n mod 8) of byte n div 8 (R173). -/
theorem bitsOfBytes_getElem? {bs : List Byte} {n : Nat} {b : Bool} (h : (bitsOfBytes bs)[n]? = some b) :
    ∃ v, bs[n / 8]? = some v ∧ v.getLsbD (7 - n % 8) = b := by
  induction bs generalizing n with
  | nil => simp [bitsOfBytes] at h
  | cons v bs ih =>
    rw [bitsOfBytes, List.flatMap_cons] at h
    by_cases hn : n < 8
    · rw [List.getElem?_append_left (by simpa using hn), bits8_getElem? v hn] at h
      rw [Nat.div_eq_of_lt hn, Nat.mod_eq_of_lt hn]
      exact ⟨v, rfl, Option.some.inj h⟩
    · rw [List.getElem?_append_right (by simpa using hn), bits8_length] at h
      obtain ⟨u, hu, hb⟩ := ih h
      rw [show n / 8 = (n - 8) / 8 + 1 by omega, show n % 8 = (n - 8) % 8 by omega]
      exact ⟨u, hu, hb⟩

theorem artifact_bit {p : Bits} {n : Nat} {b : Bool} (h : (frame p)[n]? = some b) :
    ∃ v, (artifact p)[n / 8]? = some v ∧ v.getLsbD (7 - n % 8) = b :=
  bitsOfBytes_getElem? (by rwa [bitsOfBytes_artifact])

theorem artifact_header (p : Bits) : (artifact p)[0]? = some (BitVec.ofNat 8 (paddingCount p.length)) := by
  rw [artifact, frame, List.append_assoc, serialize_append (bits8_length _), byteOfBits_bits8]
  rfl

theorem frame_payload {p : Bits} {k : Nat} (hk : k < p.length) : (frame p)[8 + k]? = p[k]? := by
  rw [frame, List.getElem?_append_left (by simp; omega), List.getElem?_append_right (by simp)]
  simp

theorem frame_padding {p : Bits} {m : Nat} (hm : m < paddingCount p.length) :
    (frame p)[8 + p.length + m]? = some false := by
  rw [frame, List.getElem?_append_right (by simp)]
  simp [zeros, hm]

/-- Settles O7: header, payload and padding as the three parts of `frame`, each bit carried to its byte. -/
theorem artifactLayout : Obligations.ArtifactLayout := by
  intro p
  refine ⟨artifact_length p, ⟨_, artifact_header p, ?header⟩, fun k b hb => ?payload,
    fun m hm => artifact_bit (frame_padding hm)⟩
  case header =>
    have hbounds := paddingCount_bounds p.length
    rw [BitVec.toNat_ofNat, Nat.mod_eq_of_lt (by omega), paddingCount]
  case payload =>
    have hk : k < p.length := (List.getElem?_eq_some_iff.mp hb).1
    have hbit := artifact_bit ((frame_payload hk).trans hb)
    rwa [show (8 + k) / 8 = 1 + k / 8 by omega, show (8 + k) % 8 = k % 8 by omega] at hbit

/-! ### RD (R81) -/

variable {s : State} {r : Word} {rest : List HostEvent}

theorem step_rd (hp : s.pending = .tx (.rd r) :: rest) :
    step s = .next { s with pending := rest, reply := some (s.regRead r) } := by
  simp only [step, hp, transact]
  rfl

theorem regRead_of_number (s : State) (g : Reg) (h : r = g.number) : s.regRead r = s.regValue g := by
  rw [h, State.regRead, registerNumbersAreTheMap.1 g]

/-- A register of fewer than 32 bits is read zero-extended. -/
theorem regRead_toNat {n : Nat} {x : BitVec n} (hn : n ≤ 32) (g : Reg) (hx : s.regValue g = x.setWidth 32)
    (h : r = g.number) : (s.regRead r).toNat = x.toNat := by
  rw [regRead_of_number s g h, hx, BitVec.toNat_setWidth_of_le hn]

theorem regRead_unmapped (s : State) (h : r = 15 ∨ 25 ≤ r.toNat) : s.regRead r = 0 := by
  rw [State.regRead, (regOfNumber_eq_none_iff r).mpr h]

theorem regRead_td (s : State) (k : Fin 9) (h : r.toNat = 16 + k.val) : s.regRead r = s.window k := by
  refine regRead_of_number s (.td k) (BitVec.eq_of_toNat_eq ?_)
  rw [h, Reg.number, BitVec.toNat_ofNat, Nat.mod_eq_of_lt (by omega)]

/-- Settles O12: register by register, in the order of their numbers. -/
theorem registerReadReturnsTheValue : Obligations.RegisterReadReturnsTheValue := by
  intro s r rest hp
  have hval := regRead_of_number (r := r) s
  refine ⟨_, step_rd hp, hval .cmd, hval .status, regRead_toNat (by decide) .err rfl, hval .errInfo,
    hval .src, hval .slen, hval .dst, hval .dcap, hval .rlen, hval .plen,
    regRead_toNat (by decide) .extra rfl, regRead_toNat (by decide) .ndist rfl,
    regRead_toNat (by decide) .nnodes rfl, regRead_toNat (by decide) .root rfl,
    regRead_toNat (by decide) .tsel rfl, regRead_td s,
    fun h => regRead_unmapped s (.inl h), fun h => regRead_unmapped s (.inr h)⟩

/-! ### WR (R82) -/

theorem isCommandRegister_eq_false (h : r ≠ 0) : isCommandRegister r = false :=
  decide_eq_false fun hr => h (number_of_regOfNumber hr).symm

theorem step_wr {v : Word} (hp : s.pending = .tx (.wr r v) :: rest) (h : r ≠ 0) :
    step s = .next ((s.takeEvent rest).regWrite r v) := by
  simp only [step, hp, transact, isCommandRegister_eq_false h, Bool.false_eq_true, if_false]

/-- A write to anything but the five writable registers is ignored. -/
theorem regWrite_ignored (s : State) (v : Word) (hsrc : r ≠ 4) (hslen : r ≠ 5) (hdst : r ≠ 6) (hdcap : r ≠ 7)
    (htsel : r ≠ 14) : s.regWrite r v = s := by
  unfold State.regWrite
  split
  · next hg => exact absurd (number_of_regOfNumber hg).symm hsrc
  · next hg => exact absurd (number_of_regOfNumber hg).symm hslen
  · next hg => exact absurd (number_of_regOfNumber hg).symm hdst
  · next hg => exact absurd (number_of_regOfNumber hg).symm hdcap
  · next hg => exact absurd (number_of_regOfNumber hg).symm htsel
  · rfl

/-- Settles O13: the five stores, the command, and the writes that are ignored. -/
theorem registerWriteStoresOrIsIgnored : Obligations.RegisterWriteStoresOrIsIgnored := by
  intro s r v rest hp
  refine ⟨_, rfl, ?src, ?slen, ?dst, ?dcap, ?tsel, ?cmd, fun h0 h4 h5 h6 h7 h14 => ?ignored⟩
  case cmd =>
    rintro rfl
    exact step_wr_cmd hp
  case tsel =>
    rintro rfl
    rw [step_wr hp (by decide), ← BitVec.setWidth_eq_extractLsb' (by decide)]
    rfl
  case ignored =>
    rw [step_wr hp h0, regWrite_ignored _ v h4 h5 h6 h7 h14]
    rfl
  all_goals
    rintro rfl
    exact step_wr hp (by decide)

end Sys2Proof.Machine
end

section
/-! The statements of 40_analyze.md, settled. -/

namespace Sys2Proof.Machine

variable {s t : State}

theorem sourceBytes_length (s : State) : s.sourceBytes.length = s.slen.toNat := readBytes_length ..

/-- SLEN is a 32-bit register, so no count of the source text wraps. -/
theorem sourceBytes_length_lt (s : State) : s.sourceBytes.length < 2 ^ 32 :=
  sourceBytes_length s ▸ s.slen.isLt

theorem commitAnalyze_ndist_toNat (s : State) (text : List Symbol) :
    (s.commitAnalyze text).ndist.toNat = text.toFinset.card := by
  have hle := distinct_le (countText text)
  rw [commitAnalyze_ndist, toNat_ofNat9 (by omega), distinct_eq_card]

/-- Symbols are bytes, so a text has at most 256 distinct ones. -/
theorem card_symbols_le (text : List Symbol) : text.toFinset.card ≤ min text.length 256 :=
  le_min (List.toFinset_card_le text) (distinct_eq_card text ▸ distinct_le _)

theorem exec_analyze_eq (hs : s.src.toNat + s.slen.toNat ≤ s.params.memSize)
    (h : exec .analyze s = .next t) : t = s.commitAnalyze s.sourceBytes :=
  Host.Outcome.next.inj (h.symm.trans (execAnalyze_completes hs))

theorem execAnalyze_out_of_range (hs : s.params.memSize < s.src.toNat + s.slen.toNat) :
    execAnalyze s = .next (s.faulted 3 0) := by
  simp only [execAnalyze, checkSource_error (Nat.not_le.mpr hs)]
  rfl

/-- Settles O23: the commit is the state of R111, and its counts and NDIST are those of the source text. -/
theorem analyzeResult : Obligations.AnalyzeResult := by
  refine fun s _ => ⟨fun hs => ?completes, execAnalyze_out_of_range⟩
  case completes =>
    exact ⟨_, _, execAnalyze_completes hs, freqAt_freqTable_toNat (sourceBytes_length_lt s),
      commitAnalyze_ndist_toNat s s.sourceBytes⟩

/-- Settles O24: each part is a law of counting the source text, whose length is SLEN; both tables depend on the
multiset of its symbols only. -/
theorem analyzeResultLaw : Obligations.AnalyzeResultLaw := by
  intro s t _ hs h
  obtain rfl := exec_analyze_eq hs h
  have hlt := sourceBytes_length_lt s
  have hcard := commitAnalyze_ndist_toNat s s.sourceBytes
  refine ⟨freqAt_freqTable_toNat hlt, (totalCount_freqTable hlt).trans (sourceBytes_length s), hcard, ?bound, ?order⟩
  case bound =>
    rw [hcard, ← sourceBytes_length]
    exact card_symbols_le s.sourceBytes
  case order =>
    intro s' t' _ hs' hp h'
    obtain rfl := exec_analyze_eq hs' h'
    refine ⟨freqTable_perm hp (sourceBytes_length_lt s'), BitVec.eq_of_toNat_eq ?_⟩
    rw [commitAnalyze_ndist_toNat, hcard]
    exact congrArg Finset.card (List.toFinset_eq_of_perm _ _ hp)

end Sys2Proof.Machine
end

section
/-! The statements of 41_build.md, settled: what the tree of a FrequencyTable is (R122 to R129), then BUILD and
the commands it may be repeated with (R195). -/

namespace Sys2Proof.Machine

variable {s t : State} {freq freq' : Cells Count}

/-! ### The tree of a FrequencyTable (R122 to R129) -/

/-- There are at most 256 leaves, so node indices fit in nine bits (R126). -/
theorem buildTree_length_le (ht : totalCount freq < 2 ^ 32) : (buildTree freq).length ≤ 511 := by
  have hlen := buildTree_length ht
  have hk := keyCount_le freq
  omega

/-- Before the first merge the queue holds exactly the indices of the leaves (R124). -/
theorem queueOf_leaves_toFinset {leaves : List Node} (hl : ∀ n ∈ leaves, n.leaf = true)
    (hk : leaves.length ≤ 256) :
    ((queueOf leaves 0).map (·.idx.toNat)).toFinset = Finset.range leaves.length := by
  have hp := (forest_start hl hk).owned
  rw [childIndices_leaves hl, List.append_nil] at hp
  rw [List.toFinset_eq_of_perm _ _ hp, List.toFinset_range]

/-- R123: BUILD's table arises by merges from the leaves with the unordered set of their indices. -/
theorem mergeRun_buildTree (ht : totalCount freq < 2 ^ 32) :
    MergeRun (leafNodes freq) (Finset.range (leafNodes freq).length) (buildTree freq) := by
  have hleaf : ∀ n ∈ leafNodes freq, n.leaf = true := fun n hn => (mem_leafNodes hn).1
  have hk : (leafNodes freq).length ≤ 256 := leafNodes_length freq ▸ keyCount_le freq
  have hq : (queueOf (leafNodes freq) 0).length = (leafNodes freq).length := by
    rw [(queueOf_perm _ _).length_eq, List.length_mapIdx]
  rw [← queueOf_leaves_toFinset hleaf hk]
  exact mergeRun_mergeLoop (forest_start hleaf hk) (queueOf_sorted (by omega)) hk
    (sum_leafNodes freq ▸ ht) hq.le

/-- The leaves depend on the counts only, not on how FREQ lists them. -/
theorem leafNodes_congr (h : ∀ x, freqAt freq x = freqAt freq' x) : leafNodes freq = leafNodes freq' := by
  simp only [leafNodes, h]

theorem buildTree_congr (h : ∀ x, freqAt freq x = freqAt freq' x) : buildTree freq = buildTree freq' := by
  simp only [buildTree, leafNodes_congr h]

theorem leafNodes_of_no_key (h : ∀ x, freqAt freq x = 0) : leafNodes freq = [] := by
  simp [leafNodes, h]

theorem leafNodes_of_one_key {x : Symbol} (hx : freqAt freq x ≠ 0) (hy : ∀ y, y ≠ x → freqAt freq y = 0) :
    leafNodes freq = [{ leaf := true, sym := x, freq := freqAt freq x
                        left := Config.noNode, right := Config.noNode }] := by
  have hkey : ∀ y : Symbol, decide (0 < (freqAt freq y).toNat) = (y == x) := fun y => by
    by_cases h : y = x
    · subst h
      simpa [Nat.pos_iff_ne_zero, BitVec.toNat_eq] using hx
    · simp [h, hy y h]
  simp only [leafNodes, hkey, List.filter_beq, allSymbols_count, List.replicate_one, List.map_singleton]

/-- At most one leaf: nothing is merged (R127, R128). -/
theorem buildTree_of_leafNodes_length_le_one (h : (leafNodes freq).length ≤ 1) :
    buildTree freq = leafNodes freq := by
  unfold buildTree
  match leafNodes freq, h with
  | [], _ => rfl
  | [_], _ => rfl

/-! ### BUILD -/

theorem execBuild_without_table (h : s.status.ftValid = false) : execBuild s = .next (s.faulted 2 3) := by
  simp only [execBuild, h, needStage_false]
  rfl

theorem exec_build_eq (hf : s.status.ftValid = true) (h : exec .build s = .next t) : t = s.commitBuild :=
  Host.Outcome.next.inj (h.symm.trans (execBuild_completes hf))

/-- Settles O25: the commit is the state R122 writes, and its table is a merge run over an unordered queue. -/
theorem buildResult : Obligations.BuildResult := by
  refine fun s => ⟨execBuild_without_table, fun hf ht => ?completes⟩
  case completes =>
    exact ⟨buildTree s.freq, leafNodes s.freq, execBuild_completes hf, buildTree_length_le ht, rfl,
      mergeRun_buildTree ht⟩

/-- Settles O28: without a key there is no leaf, with one key one leaf, and in both cases nothing is merged. -/
theorem buildOfEmptyAndSingleTable : Obligations.BuildOfEmptyAndSingleTable := by
  intro s hf
  refine ⟨fun h0 => ?empty, fun x hx hy => ?single⟩
  case empty =>
    have hl := leafNodes_of_no_key h0
    have hb : buildTree s.freq = [] := by rw [buildTree_of_leafNodes_length_le_one (by simp [hl]), hl]
    refine (execBuild_completes hf).trans ?_
    simp only [State.commitBuild, hb]
    rfl
  case single =>
    have hl := leafNodes_of_one_key hx hy
    have hb := (buildTree_of_leafNodes_length_le_one (by simp [hl])).trans hl
    refine (execBuild_completes hf).trans ?_
    simp only [State.commitBuild, hb]
    rfl

/-- Settles O29: the commit takes all three from the tree of FREQ, which depends on the counts only. -/
theorem buildIsAFunctionOfFreq : Obligations.BuildIsAFunctionOfFreq := by
  intro s s' t t' hf hf' hfreq h h'
  obtain rfl := exec_build_eq hf h
  obtain rfl := exec_build_eq hf' h'
  simp only [commitBuild_node, commitBuild_nnodes, commitBuild_root, buildTree_congr hfreq, and_self]

/-! ### BUILD and GENCODE repeated (R195) -/

/-- A repeated BUILD finds the tree it would make, and empties the code table. -/
theorem Inv.commitBuild_eq (h : Inv s) (ht : s.status.treeValid = true) :
    s.commitBuild = { s with code := [], rev := [], status := { s.status with ctValid := false } } := by
  obtain ⟨hnode, hnnodes, hroot⟩ := h.tables.tree ht
  have hn : BitVec.ofNat 9 s.node.length = s.nnodes := by
    rw [← hnnodes, BitVec.ofNat_toNat, BitVec.setWidth_eq]
  have hstatus : s.status.afterBuild = { s.status with ctValid := false } := by
    rw [Status.afterBuild, ← ht]
  simp only [State.commitBuild, State.emptyCodes, ← hnode, hn, ← hroot, hstatus]

/-- A repeated GENCODE finds the code table it would make. -/
theorem Inv.commitGencode_eq (h : Inv s) (hc : s.status.ctValid = true) : s.commitGencode s.rev = s := by
  obtain ⟨_, hcode⟩ := h.tables.codes hc
  have hstatus : s.status.afterGencode = s.status := by rw [Status.afterGencode, ← hc]
  simp only [State.commitGencode, hstatus, ← hcode]

/-- Settles O33: the tables of the invariant are those BUILD and GENCODE make, and GENCODE reads only NODE, NNODES
and ROOT, which a repeated BUILD leaves. -/
theorem repeatedBuildAndGencodeGiveTheSame : Obligations.RepeatedBuildAndGencodeGiveTheSame := by
  refine fun s h => ⟨fun ht => ?build, fun hc => ?gencode⟩
  case build =>
    exact (execBuild_completes (h.control.treeStage ht)).trans (congrArg _ (h.commitBuild_eq ht))
  case gencode =>
    have ht := h.control.codeStage hc
    obtain ⟨hlist, _⟩ := h.tables.codes hc
    have hcommit : Host.Outcome.next (s.commitGencode s.rev) = (.next s : Result) :=
      congrArg _ (h.commitGencode_eq hc)
    have hafter := execGencode_completes (l := s.rev)
      (s := { s with code := [], rev := [], status := { s.status with ctValid := false } }) ht hlist
    exact ⟨(execGencode_completes ht hlist).trans hcommit, hafter.trans hcommit⟩

end Sys2Proof.Machine
end

section
/-! The statements of 42_gencode.md, settled: the paths of a tree (R136), what GENCODE makes of them (R137 to R142)
and the laws of the code table (R143). -/

namespace Sys2Proof.Machine

/-! ### Paths (R136) -/

/-- The child of a node on the side that a bit of a path selects: 0 left, 1 right (R136). -/
def Node.child (n : Node) (b : Bool) : NodeIdx := if b then n.right else n.left

theorem Node.child_left_or_right (n : Node) (b : Bool) :
    (n.child b).toNat = n.left.toNat ∨ (n.child b).toNat = n.right.toNat := by
  cases b with
  | false => exact .inl rfl
  | true => exact .inr rfl

section paths
variable {at' : Nat → Option Node} {root i : NodeIdx} {p : Bits}

theorem PathTo.child {n : Node} (h : PathTo at' root i p) (hn : at' i.toNat = some n) (inner : n.leaf = false)
    (b : Bool) : PathTo at' root (n.child b) (p ++ [b]) := by
  cases b with
  | false => exact h.left hn inner
  | true => exact h.right hn inner

/-- A path is that of the root, or one bit longer than the path of an internal node. -/
theorem PathTo.root_or_child (h : PathTo at' root i p) :
    (i = root ∧ p = []) ∨ ∃ k n p' b, PathTo at' root k p' ∧ at' k.toNat = some n ∧ n.leaf = false ∧
      i = n.child b ∧ p = p' ++ [b] := by
  cases h with
  | root => exact .inl ⟨rfl, rfl⟩
  | left h hn inner => exact .inr ⟨_, _, _, false, h, hn, inner, rfl, rfl⟩
  | right h hn inner => exact .inr ⟨_, _, _, true, h, hn, inner, rfl, rfl⟩

end paths

theorem mem_childIndices {l : List Node} {j : Nat} :
    j ∈ childIndices l ↔ ∃ (i : Nat) (n : Node) (b : Bool),
      l[i]? = some n ∧ n.leaf = false ∧ j = (n.child b).toNat := by
  constructor
  · intro hj
    obtain ⟨n, hn, hc⟩ := List.mem_flatMap.mp hj
    obtain ⟨i, hi⟩ := List.mem_iff_getElem?.mp hn
    cases hl : n.leaf with
    | true => simp [hl] at hc
    | false =>
      rw [hl] at hc
      rcases List.mem_pair.mp hc with rfl | rfl
      · exact ⟨i, n, false, hi, hl, rfl⟩
      · exact ⟨i, n, true, hi, hl, rfl⟩
  · rintro ⟨i, n, b, hi, hl, rfl⟩
    refine List.mem_flatMap.mpr ⟨n, List.mem_of_getElem? hi, ?_⟩
    cases b <;> simp [hl, Node.child]

/-- R37 (d): two internal nodes with a common child are one node, and the child is on one side of it. -/
theorem child_unique {l : List Node} (h : (childIndices l).Nodup) {i j : Nat} {m n : Node}
    (hi : l[i]? = some m) (hj : l[j]? = some n) (hm : m.leaf = false) (hn : n.leaf = false) {b c : Bool}
    (hbc : m.child b = n.child c) : i = j ∧ b = c := by
  obtain rfl : i = j :=
    owner_unique h hi hj hm hn (m.child_left_or_right b) (hbc ▸ n.child_left_or_right c)
  obtain rfl : m = n := Option.some.inj (hi.symm.trans hj)
  have hne : m.left ≠ m.right := fun he => left_ne_right h hi hm (congrArg BitVec.toNat he)
  refine ⟨rfl, ?_⟩
  match b, c, hbc with
  | false, false, _ | true, true, _ => rfl
  | false, true, he => exact absurd he hne
  | true, false, he => exact absurd he.symm hne

section tree
variable {s : State}

/-- While TREE_VALID is set NODE holds nothing past NNODES. -/
theorem Inv.nodeAt_eq_node (h : Inv s) (ht : s.status.treeValid = true) (i : Nat) : s.nodeAt i = s.node[i]? := by
  rw [h.nodeAt_eq ht, (h.tables.tree ht).1]

/-- R37 (b): the root is the last node. -/
theorem TreeShape.root_last (T : TreeShape s) {i : Nat} (hi : i < s.nnodes.toNat) :
    s.root.toNat + 1 = s.nnodes.toNat := by
  have hne : s.ndist ≠ 0 := fun h0 => by simp [(T.empty h0).1] at hi
  obtain ⟨hn, hr⟩ := T.size hne
  omega

/-- R37 (d): a node but the root is the child of an internal node of a greater index. -/
theorem Inv.has_parent (h : Inv s) (ht : s.status.treeValid = true) {i : NodeIdx} (hi : i.toNat < s.nnodes.toNat)
    (hr : i ≠ s.root) : ∃ (k : NodeIdx) (n : Node) (b : Bool), i.toNat < k.toNat ∧ k.toNat < s.nnodes.toNat ∧
      s.nodeAt k.toNat = some n ∧ n.leaf = false ∧ i = n.child b := by
  have T := treeShapeWhileTreeValid s h ht
  have hlast := T.root_last hi
  have hne : i.toNat ≠ s.root.toNat := fun he => hr (BitVec.eq_of_toNat_eq he)
  obtain ⟨k, n, b, hk, hl, hc⟩ := mem_childIndices.mp ((T.owned.2 i.toNat).mpr (by omega))
  rw [← h.nodeAt_eq_node ht] at hk
  have hkn : k < s.nnodes.toNat := by
    by_contra hge
    simp [nodeAt_of_le (Nat.not_lt.mp hge)] at hk
  have hk9 := toNat_ofNat9 (hkn.trans s.nnodes.isLt)
  have hlt : i.toNat < k := by
    obtain ⟨hleft, hright⟩ := T.smaller k n hk hl
    rcases n.child_left_or_right b with he | he <;> omega
  exact ⟨BitVec.ofNat 9 k, n, b, by rwa [hk9], by rwa [hk9], by rwa [hk9], hl, BitVec.eq_of_toNat_eq hc⟩

/-- R37 (d): the root is no child. -/
theorem Inv.child_ne_root (h : Inv s) (ht : s.status.treeValid = true) {k : NodeIdx} {n : Node} {b : Bool}
    (hn : s.nodeAt k.toNat = some n) (hl : n.leaf = false) : n.child b ≠ s.root := by
  intro he
  have T := treeShapeWhileTreeValid s h ht
  rw [h.nodeAt_eq_node ht] at hn
  have hchild := (T.owned.2 (n.child b).toNat).mp (mem_childIndices.mpr ⟨_, n, b, hn, hl, rfl⟩)
  have hlast := T.root_last ((Nat.lt_succ_self _).trans hchild)
  rw [he] at hchild
  omega

/-- R37 (d): no node is the child of two nodes, or on both sides of one. -/
theorem Inv.parent_unique (h : Inv s) (ht : s.status.treeValid = true) {k k' : NodeIdx} {n n' : Node} {b b' : Bool}
    (hn : s.nodeAt k.toNat = some n) (hl : n.leaf = false) (hn' : s.nodeAt k'.toNat = some n')
    (hl' : n'.leaf = false) (hc : n.child b = n'.child b') : k = k' ∧ b = b' := by
  rw [h.nodeAt_eq_node ht] at hn hn'
  obtain ⟨hk, hb⟩ := child_unique (treeShapeWhileTreeValid s h ht).owned.1 hn hn' hl hl' hc
  exact ⟨BitVec.eq_of_toNat_eq hk, hb⟩

/-- Settles O27, from the root downwards: the path of a node is that of its one parent and one bit more. -/
theorem everyNodeHasOnePath : Obligations.EveryNodeHasOnePath := by
  intro s h ht i hi
  induction hd : s.nnodes.toNat - i.toNat using Nat.strong_induction_on generalizing i with
  | _ d ih =>
    by_cases hr : i = s.root
    case pos =>
      subst hr
      refine ⟨[], .root, fun q hq => ?_⟩
      rcases hq.root_or_child with ⟨_, hnil⟩ | ⟨k, n, _, b, _, hn, hl, hc, _⟩
      · exact hnil
      · exact absurd hc.symm (h.child_ne_root ht hn hl)
    case neg =>
      obtain ⟨k, n, b, hik, hk, hn, hl, rfl⟩ := h.has_parent ht hi hr
      obtain ⟨p, hp, hunique⟩ := ih (s.nnodes.toNat - k.toNat) (by omega) k hk rfl
      refine ⟨p ++ [b], hp.child hn hl b, fun q hq => ?_⟩
      rcases hq.root_or_child with ⟨he, _⟩ | ⟨k', n', q', b', hq', hn', hl', hc, rfl⟩
      · exact absurd he hr
      · obtain ⟨rfl, rfl⟩ := h.parent_unique ht hn hl hn' hl' hc
        rw [hunique q' hq']

end tree

/-! ### GENCODE (R137 to R142) -/

section gencode
variable {at' : Nat → Option Node} {nnodes : Nat} {root : NodeIdx} {n : Node}

/-- R142. -/
theorem codeList_empty (hr : root = Config.noNode) : codeList at' nnodes root = some [] := if_pos hr

/-- R140. -/
theorem codeList_leaf (hr : root ≠ Config.noNode) (hn : at' root.toNat = some n) (hl : n.leaf = true) :
    codeList at' nnodes root = some [{ sym := n.sym, bits := [false] }] := by
  simp [codeList, hr, hn, hl]

/-- R137. -/
theorem codeList_inner (hr : root ≠ Config.noNode) (hn : at' root.toNat = some n) (hl : n.leaf = false) :
    codeList at' nnodes root = walk at' nnodes root [] := by
  simp [codeList, hr, hn, hl]

/-- R136: the entries of a walk from the root are the leaves with their paths. -/
theorem mem_walk_iff {fuel : Nat} {l : List RevEntry} (h : walk at' fuel root [] = some l) (x : Symbol) (p : Bits) :
    { sym := x, bits := p } ∈ l ↔
      ∃ i m, PathTo at' root i p ∧ at' i.toNat = some m ∧ m.leaf = true ∧ m.sym = x := by
  refine ⟨fun he => walk_paths h .root _ he, ?_⟩
  rintro ⟨i, m, hp, hm, hl, rfl⟩
  obtain ⟨g, l', hw, hsub⟩ := walk_of_path h hp
  obtain ⟨_, m', _, hm', ⟨_, rfl⟩ | ⟨hl', _⟩⟩ := walk_cases hw
  · obtain rfl : m = m' := Option.some.inj (hm.symm.trans hm')
    exact hsub _ (List.mem_singleton.mpr rfl)
  · obtain rfl : m = m' := Option.some.inj (hm.symm.trans hm')
    simp [hl] at hl'

theorem execGencode_without_tree {s : State} (h : s.status.treeValid = false) :
    execGencode s = .next (s.faulted 2 4) := by
  simp only [execGencode, h, needStage_false]
  rfl

/-- Settles O30: the tree of the invariant has a code list, which the shape of its root decides. -/
theorem gencodeResult : Obligations.GencodeResult := by
  refine fun s => ⟨execGencode_without_tree, fun h ht => ?completes⟩
  case completes =>
    obtain ⟨l, hl, ok⟩ := h.codeList ht
    have result : ∀ {l'}, codeList s.nodeAt s.nnodes.toNat s.root = some l' → l = l' :=
      fun h' => Option.some.inj (hl.symm.trans h')
    exact ⟨codeTable l, l, execGencode_completes ht hl, codeAt_codeTable ok.symbols_nodup,
      ok.length_eq.trans h.tables.ndist.symm, ok.sorted,
      fun hr => result (codeList_empty hr),
      fun n hr hn hleaf => result (codeList_leaf hr hn hleaf),
      fun n hr hn hinner => mem_walk_iff ((codeList_inner hr hn hinner).symm.trans hl)⟩

end gencode

/-! ### The laws of the code table (R143) -/

section laws
variable {s : State}

/-- R143 (a). -/
theorem Inv.codeAt_isSome_iff (h : Inv s) (hc : s.status.ctValid = true) (x : Symbol) :
    (codeAt s.code x).isSome = true ↔ freqAt s.freq x ≠ 0 := by
  have hpos : freqAt s.freq x ≠ 0 ↔ 0 < (freqAt s.freq x).toNat := by
    simp [Nat.pos_iff_ne_zero, BitVec.toNat_eq]
  rw [hpos, ← (h.rev_ok hc).mem_symbols_iff x, Option.isSome_iff_exists, List.mem_map]
  constructor
  · rintro ⟨p, hp⟩
    exact ⟨_, (h.codeAt_iff hc x p).mp hp, rfl⟩
  · rintro ⟨e, he, rfl⟩
    exact ⟨e.bits, (h.codeAt_iff hc e.sym e.bits).mpr he⟩

/-- R143 (h): a text with the counts of FREQ has a payload, whose length FREQ and CODE decide. -/
theorem Inv.payload_of_counts (h : Inv s) (hc : s.status.ctValid = true) {text : List Symbol}
    (hcount : ∀ x : Symbol, text.count x = (freqAt s.freq x).toNat) :
    ∃ p, payloadOf s.code text = some p ∧ p.length = (allSymbols.map fun x =>
      (freqAt s.freq x).toNat * ((codeAt s.code x).getD []).length).sum := by
  have hcoded : ∀ x ∈ text, (codeAt s.code x).isSome := fun x hx => by
    refine (h.codeAt_isSome_iff hc x).mpr fun h0 => ?_
    have hpos := List.count_pos_iff.mpr hx
    rw [hcount, h0] at hpos
    exact Nat.lt_irrefl 0 hpos
  obtain ⟨p, hp⟩ := payloadOf_isSome hcoded
  refine ⟨p, hp, ?_⟩
  rw [payloadOf_length hp, sum_by_symbol]
  simp only [hcount]

/-- Settles O32: the laws of GENCODE's code list, read in CODE through its inverse REV. -/
theorem codeTableLaws : Obligations.CodeTableLaws := by
  intro s h hc
  have ok := h.rev_ok hc
  have hk := h.tables.ndist
  have entry : ∀ {x p}, codeAt s.code x = some p → { sym := x, bits := p } ∈ s.rev :=
    fun {x p} => (h.codeAt_iff hc x p).mp
  refine ⟨h.codeAt_isSome_iff hc, fun h2 => ⟨fun x p hp => ?lengths, ?complete⟩, fun h1 x p hp => ?single,
    fun h0 x => ?none, fun _ => h.payload_of_counts hc⟩
  case lengths =>
    have hpos := List.length_pos_of_ne_nil (ok.nonEmpty _ (entry hp))
    have hdepth := ok.depth (hk ▸ h2) _ (entry hp)
    simp only at hpos hdepth
    omega
  case complete =>
    rw [h.revEntries_eq hc]
    exact ok.kraft (hk ▸ h2)
  case single => exact ok.single (hk ▸ h1) _ (entry hp)
  case none =>
    have hnil : s.rev = [] := List.eq_nil_of_length_eq_zero (by rw [ok.length_eq, ← hk, h0])
    refine Option.eq_none_iff_forall_ne_some.mpr fun p hp => ?_
    simpa [hnil] using entry hp

end laws

end Sys2Proof.Machine
end

section
/-! The statements of 43_pack.md, settled. -/

namespace Sys2Proof.Machine

variable {s : State}

/-! ### What PACK reports, test by test (R158) -/

theorem execPack_without_codes (h : s.status.ctValid = false) : execPack s = .next (s.faulted 2 5) := by
  simp only [execPack, h, needStage_false]
  rfl

theorem execPack_region_error (hc : s.status.ctValid = true) {r : Raised} (h : s.checkRegions = .error r) :
    execPack s = .next (s.raise r) := by
  simp only [execPack, hc, needStage_true, h]
  rfl

theorem execPack_encode_error (hc : s.status.ctValid = true) (hr : RegionsOk s) {r : Raised}
    (h : encodeText s.code 0 s.sourceBytes = .error r) : execPack s = .next (s.raise r) := by
  rw [execPack_eq hc hr, h]
  rfl

theorem execPack_without_room (hc : s.status.ctValid = true) (hr : RegionsOk s) {p : Bits}
    (hp : payloadOf s.code s.sourceBytes = some p) (hl : s.dcap.toNat < (artifact p).length) :
    execPack s = .next (s.faulted 5 0) := by
  rw [execPack_eq hc hr, encodeText_ok hp]
  simp only [State.commitPack]
  rw [if_pos hl]
  rfl

/-- Settles O34: the completing PACK leaves `packed`; every other outcome is that of the first test that fails. -/
theorem packResult : Obligations.PackResult := by
  refine ⟨fun s p hm hc hr hp hl => ?completes, fun s => ⟨execPack_without_codes,
    fun hc hs => execPack_region_error hc (checkRegions_source hs),
    fun hc hs hd => execPack_region_error hc (checkRegions_destination hs hd),
    fun hc hs hd hslen hdcap hds hsd => ?overlap, fun hc hr u v x htext hu hx => ?noCode,
    fun hc hr p hp hl => execPack_without_room hc hr hp (by rwa [artifact_length])⟩⟩
  case completes =>
    rw [← artifact_length p] at hl
    exact ⟨packed s p, execPack_completes hc hr hp hl, rfl, packed_writes hm hr hl⟩
  case overlap =>
    refine execPack_region_error hc (checkRegions_overlap hs hd ?_)
    rintro (h | h | h | h)
    · exact hslen h
    · exact hdcap h
    · omega
    · omega
  case noCode =>
    have herr := encodeText_error hu hx 0 (v := v)
    rw [Nat.zero_add, ← htext] at herr
    exact execPack_encode_error hc hr herr

/-! ### The length laws (R156) -/

theorem packed_header (s : State) (p : Bits) :
    (packed s p).readByte s.dst.toNat = BitVec.ofNat 8 (paddingCount p.length) := by
  have hread : (packed s p).readBytes s.dst.toNat (artifact p).length = artifact p :=
    readBytes_writeBytes_self s _ _
  have hhead := artifact_header p
  rw [← hread, artifact_length] at hhead
  simpa [State.readBytes] using hhead

/-- Settles O35: a PACK without a fault leaves `packed`, whose lengths are those of the payload and its
artifact. -/
theorem packLengthLaws : Obligations.PackLengthLaws := by
  intro s t hm _ h hf
  obtain ⟨_, hr, p, hp, hl, rfl⟩ | ⟨r, _, rfl⟩ := execPack_cases h
  · obtain ⟨hrlen, hplen, hextra, _⟩ := packed_writes hm hr hl
    rw [hrlen, hplen, hextra]
    refine ⟨rfl, by omega, rfl, ?header, payloadOf_length hp⟩
    case header => rw [packed_header, ← hextra]; rfl
  · exact absurd hf (by simp [State.raise])

end Sys2Proof.Machine
end

section
/-! The statements of 44_unpack.md, settled. -/

namespace Sys2Proof.Machine

variable {s : State}

/-! ### Step 1, the bit string of an artifact (R173) -/

/-- Settles O6: position 8j + k exists, and `bitsOfBytes_getElem?` says which byte and which bit it holds. -/
theorem bitstreamIsMsbFirst : Obligations.BitstreamIsMsbFirst := by
  refine fun bs => ⟨bitsOfBytes_length bs, fun j k v hv hk => ?_⟩
  have hj : j < bs.length := (List.getElem?_eq_some_iff.mp hv).1
  have hin : 8 * j + k < (bitsOfBytes bs).length := by
    rw [bitsOfBytes_length]
    omega
  obtain ⟨u, hu, hbit⟩ := bitsOfBytes_getElem? (List.getElem?_eq_getElem hin)
  rw [show (8 * j + k) / 8 = j by omega, hv] at hu
  rw [show (8 * j + k) % 8 = k by omega, ← Option.some.inj hu] at hbit
  rw [List.getElem?_eq_getElem hin, hbit]

/-! ### Steps 2 and 3, header and padding (R174, R176) -/

theorem bitsOfBytes_cons (v : Byte) (bs : List Byte) : bitsOfBytes (v :: bs) = bits8 v ++ bitsOfBytes bs :=
  List.flatMap_cons

theorem unframe_nil : unframe [] = .error { cause := .format, info := 0 } := rfl

/-- A header byte that claims more bits than follow it. -/
theorem unframe_short {v : Byte} {bs : List Byte} (h : 8 * bs.length < v.toNat) :
    unframe (v :: bs) = .error { cause := .format, info := v.setWidth 32 } := by
  have hhead : (bits8 v ++ bitsOfBytes bs).take 8 = bits8 v := List.take_left' (bits8_length v)
  have hrest : (bits8 v ++ bitsOfBytes bs).drop 8 = bitsOfBytes bs := List.drop_left' (bits8_length v)
  rw [unframe, if_neg (by simp)]
  simp only [bitsOfBytes_cons, hhead, hrest, byteOfBits_bits8, bitsOfBytes_length]
  rw [if_pos h, BitVec.ofNat_toNat]

/-- A header byte that claims no more bits than follow it leaves a payload before the padding. -/
theorem bitsOfBytes_split {v : Byte} {bs : List Byte} (h : v.toNat ≤ 8 * bs.length) :
    ∃ payload pad : Bits, bitsOfBytes (v :: bs) = bits8 v ++ payload ++ pad ∧ pad.length = v.toNat := by
  refine ⟨(bitsOfBytes bs).take (8 * bs.length - v.toNat), (bitsOfBytes bs).drop (8 * bs.length - v.toNat), ?_, ?_⟩
  · rw [bitsOfBytes_cons, List.append_assoc, List.take_append_drop]
  · rw [List.length_drop, bitsOfBytes_length]
    omega

theorem sourceBytes_eq_nil (h : s.slen = 0) : s.sourceBytes = [] :=
  List.eq_nil_of_length_eq_zero (by rw [sourceBytes_length, h]; rfl)

theorem sourceBytes_eq_cons (h : s.slen ≠ 0) :
    ∃ bs, s.sourceBytes = s.readByte s.src.toNat :: bs ∧ bs.length = s.slen.toNat - 1 := by
  obtain ⟨n, hn⟩ := Nat.exists_eq_succ_of_ne_zero fun h0 => h (BitVec.eq_of_toNat_eq h0)
  have hbytes : s.sourceBytes = s.readByte s.src.toNat :: s.readBytes (s.src.toNat + 1) n := by
    rw [State.sourceBytes, hn, State.readBytes, List.range_succ_eq_map, List.map_cons, List.map_map]
    simp [State.readBytes, Function.comp_def, Nat.add_assoc, Nat.add_comm 1]
  exact ⟨_, hbytes, by rw [readBytes_length, hn, Nat.succ_sub_one]⟩

/-! ### Step 4, the Decoder on codes and a rest (R178, R179) -/

/-- The symbols of the codes when nothing follows them, UNTERMINATED where a rest begins that no code begins. -/
theorem decodeBits_codes_rest (h : CodesOk s) {es : List RevEntry} (hes : ∀ e ∈ es, e ∈ s.revEntries)
    {tail : Bits} (hno : ∀ e ∈ s.revEntries, ¬ e.bits <+: tail) :
    decodeBits s.revEntries 0 0 [] (es.flatMap (·.bits) ++ tail) =
      if tail = [] then .ok (es.map (·.sym))
      else .error { cause := .unterminated, info := BitVec.ofNat 32 (es.flatMap (·.bits)).length } := by
  split
  · next htail => rw [htail, List.append_nil, decodeBits_all h hes]
  · next htail =>
    rw [decodeBits_codes (distinguished_of_codesOk h) hes, Nat.zero_add,
      decodeBits_unmatched (cand := []) htail fun e he hp => absurd hp (hno e he)]

/-! ### What UNPACK reports, test by test (R181) -/

theorem execUnpack_without_codes (h : s.status.ctValid = false) : execUnpack s = .next (s.faulted 2 6) := by
  simp only [execUnpack, h, needStage_false]
  rfl

theorem execUnpack_region_error (hc : s.status.ctValid = true) {r : Raised} (h : s.checkRegions = .error r) :
    execUnpack s = .next (s.raise r) := by
  simp only [execUnpack, hc, needStage_true, h]
  rfl

section regions
variable (hc : s.status.ctValid = true) (hr : RegionsOk s)
include hc hr

theorem execUnpack_format_error {r : Raised} (h : unframe s.sourceBytes = .error r) :
    execUnpack s = .next (s.raise r) := by
  rw [execUnpack_eq hc hr, h]
  rfl

theorem execUnpack_decode_error {u : Unframed} {r : Raised} (hu : unframe s.sourceBytes = .ok u)
    (hd : decodeBits s.revEntries 0 0 [] u.payload = .error r) : execUnpack s = .next (s.raise r) := by
  rw [execUnpack_eq hc hr, hu]
  simp only [hd]
  rfl

theorem execUnpack_without_room {u : Unframed} {out : List Symbol} (hu : unframe s.sourceBytes = .ok u)
    (hd : decodeBits s.revEntries 0 0 [] u.payload = .ok out) (hl : s.dcap.toNat < out.length) :
    execUnpack s = .next (s.faulted 5 0) := by
  rw [execUnpack_eq hc hr, hu]
  simp only [hd, State.commitUnpack]
  rw [if_pos hl]
  rfl

/-! ### UNPACK of a header, codes, a rest and padding -/

variable (hok : CodesOk s) {x : Byte} {es : List RevEntry} {pad : Bits} (hes : ∀ e ∈ es, e ∈ s.revEntries)
  (hpad : pad.length = x.toNat)
include hok hes hpad

theorem execUnpack_of_rest {tail : Bits}
    (hbits : bitsOfBytes s.sourceBytes = bits8 x ++ (es.flatMap (·.bits) ++ tail) ++ pad)
    (htail : tail ≠ []) (hno : ∀ e ∈ s.revEntries, ¬ e.bits <+: tail) :
    execUnpack s = .next (s.faulted 7 (BitVec.ofNat 32 (es.flatMap (·.bits)).length)) :=
  execUnpack_decode_error hc hr (unframe_eq_ok hbits hpad)
    ((decodeBits_codes_rest hok hes hno).trans (if_neg htail))

theorem execUnpack_of_too_many_codes (hbits : bitsOfBytes s.sourceBytes = bits8 x ++ es.flatMap (·.bits) ++ pad)
    (hl : s.dcap.toNat < es.length) : execUnpack s = .next (s.faulted 5 0) :=
  execUnpack_without_room hc hr (unframe_eq_ok hbits hpad) (decodeBits_all hok hes) (by rwa [List.length_map])

theorem execUnpack_of_codes (hm : s.params.memSize ≤ 2 ^ 28)
    (hbits : bitsOfBytes s.sourceBytes = bits8 x ++ es.flatMap (·.bits) ++ pad) (hl : es.length ≤ s.dcap.toNat) :
    ∃ t, execUnpack s = .next t ∧
      t = { s with mem := t.mem, rlen := t.rlen, plen := t.plen, extra := t.extra } ∧
      t.rlen.toNat = es.length ∧ t.plen.toNat = (es.flatMap (·.bits)).length ∧ t.extra = x ∧
      t.readBytes s.dst.toNat es.length = es.map (·.sym) ∧
      ∀ a, (a < s.dst.toNat ∨ s.dst.toNat + es.length ≤ a) → t.readByte a = s.readByte a := by
  have hout : (es.map (·.sym)).length = es.length := List.length_map _
  have hplen : (es.flatMap (·.bits)).length < 2 ^ 32 := by
    have htotal := congrArg List.length hbits
    rw [bitsOfBytes_length, sourceBytes_length, List.length_append, List.length_append] at htotal
    have hsrc := hr.src
    omega
  have hwrites := unpacked_writes (u := { extra := x.toNat, payload := es.flatMap (·.bits) }) hr
    (hout.trans_le hl) hplen
  rw [hout, BitVec.ofNat_toNat, BitVec.setWidth_eq] at hwrites
  exact ⟨_, execUnpack_completes hc hr (unframe_eq_ok hbits hpad) (decodeBits_all hok hes) (hout.trans_le hl), rfl,
    hwrites⟩

end regions

/-- Settles O36: the completing UNPACK is that of a header, codes and padding; every other outcome is that of the
first test that fails. -/
theorem unpackResult : Obligations.UnpackResult := by
  refine ⟨fun s x es pad hm hc hr hok hes hbits hpad hl => execUnpack_of_codes hc hr hok hes hpad hm hbits hl,
    fun s => ⟨execUnpack_without_codes,
      fun hc hs => execUnpack_region_error hc (checkRegions_source hs),
      fun hc hs hd => execUnpack_region_error hc (checkRegions_destination hs hd),
      fun hc hs hd hslen hdcap hds hsd => ?overlap, fun hc hr h0 => ?empty, fun hc hr h0 hx => ?short,
      fun hc hr hok x es tail pad hes hbits hpad =>
        ⟨execUnpack_of_rest hc hr hok hes hpad hbits, fun htail hl => ?room⟩⟩⟩
  case overlap =>
    refine execUnpack_region_error hc (checkRegions_overlap hs hd ?_)
    simp only [hslen, hdcap, false_or]
    omega
  case empty =>
    exact execUnpack_format_error hc hr (sourceBytes_eq_nil h0 ▸ unframe_nil)
  case short =>
    obtain ⟨bs, hbs, hlen⟩ := sourceBytes_eq_cons h0
    exact execUnpack_format_error hc hr (hbs ▸ unframe_short (hlen ▸ hx))
  case room =>
    rw [htail, List.append_nil] at hbits
    exact execUnpack_of_too_many_codes hc hr hok hes hpad hbits hl

/-- Settles O37: `codes_and_rest` splits every payload, and the three outcomes are those of UNPACK on the split. -/
theorem unpackOfEveryArtifact : Obligations.UnpackOfEveryArtifact := by
  refine fun s hok => ⟨fun payload => ?decoder, fun hm hc hr h0 hx => ?unpack⟩
  case decoder =>
    obtain ⟨es, tail, hes, rfl, hno⟩ := codes_and_rest hok payload
    exact ⟨es, tail, hes, rfl, hno, decodeBits_codes_rest hok hes hno⟩
  case unpack =>
    obtain ⟨bs, hbs, hlen⟩ := sourceBytes_eq_cons h0
    obtain ⟨payload, pad, hbits, hpad⟩ := bitsOfBytes_split (hlen ▸ hx)
    rw [← hbs] at hbits
    obtain ⟨es, tail, hes, rfl, hno⟩ := codes_and_rest hok payload
    refine ⟨es, tail, pad, hes, hbits, hpad, hno, fun htail => execUnpack_of_rest hc hr hok hes hpad hbits htail hno,
      fun htail => ?room, fun htail => ?completes⟩
    case room =>
      rw [htail, List.append_nil] at hbits
      exact execUnpack_of_too_many_codes hc hr hok hes hpad hbits
    case completes =>
      rw [htail, List.append_nil] at hbits
      exact execUnpack_of_codes hc hr hok hes hpad hm hbits

/-! ### UNPACK after PACK (R183) -/

/-- UNPACK of an artifact whose payload the Decoder reads to its end. -/
theorem execUnpack_of_artifact (hr : RegionsOk s) (hc : s.status.ctValid = true) {p : Bits} {out : List Symbol}
    (hsource : s.sourceBytes = artifact p) (hd : decodeBits s.revEntries 0 0 [] p = .ok out)
    (hl : out.length ≤ s.dcap.toNat) :
    execUnpack s = .next (unpacked s { extra := paddingCount p.length, payload := p } out) :=
  execUnpack_completes hc hr (hsource ▸ unframe_artifact p) hd hl

/-- The text of a PACK that the table encodes is what the Decoder makes of its payload. -/
theorem decodeBits_payloadOf (hok : CodesOk s) {text : List Symbol} {p : Bits} (hp : payloadOf s.code text = some p) :
    decodeBits s.revEntries 0 0 [] p = .ok text := by
  obtain ⟨es, hes, rfl, rfl⟩ := payloadOf_entries hok hp
  exact decodeBits_all hok hes

/-- The bytes a completed PACK wrote, as the source of an UNPACK. -/
theorem sourceBytes_packed {p : Bits} (hm : s.params.memSize ≤ 2 ^ 28) (hr : RegionsOk s)
    (hl : (artifact p).length ≤ s.dcap.toNat) (d c : Word) :
    { packed s p with src := s.dst, slen := (packed s p).rlen, dst := d, dcap := c }.sourceBytes = artifact p := by
  obtain ⟨hrlen, _, _, hart, _⟩ := packed_writes hm hr hl
  show (packed s p).readBytes s.dst.toNat (packed s p).rlen.toNat = artifact p
  rw [hrlen, hart]

/-- Settles O38: the bytes read are the artifact PACK wrote, and its payload decodes to the text. -/
theorem unpackInvertsPack : Obligations.UnpackInvertsPack := by
  intro s t d c hm hok _ hpack hfault hregions hcap
  obtain ⟨hc, hr, p, hp, hl, rfl⟩ | ⟨r, _, rfl⟩ := execPack_cases hpack
  · rw [← sourceBytes_length] at hcap
    refine ⟨_, execUnpack_of_artifact hregions hc (sourceBytes_packed hm hr hl d c)
      (decodeBits_payloadOf hok hp) hcap, rfl, ?text, ?rlen, rfl, rfl⟩
    case text =>
      have hread := readBytes_writeBytes_self (packed s p) d.toNat s.sourceBytes
      rwa [sourceBytes_length] at hread
    case rlen =>
      show BitVec.ofNat 32 s.sourceBytes.length = s.slen
      rw [sourceBytes_length, BitVec.ofNat_toNat, BitVec.setWidth_eq]
  · exact absurd hfault (by simp)

end Sys2Proof.Machine
end

section
/-! The statements of 45_control.md on single commands and steps, settled: which word runs (R190 to R192), what a
command reports and which stage flags it needs and leaves (R193, R195), CLEAR and FACK (R197, R198). -/

namespace Sys2Proof.Machine

variable {s t : State}

/-! ### Which words run (R190 to R192) -/

theorem command_of_decoded {w : Word} {i : Instr} (h : decode w = .command i) (hf : s.status.fault = false) :
    command w s = exec i s := by
  simp only [command, takeCommand, hf, h]

/-- Settles O8: the word arrives by a WR to CMD, and with FAULT clear what it decodes to is executed. -/
theorem stepRunsTheDecodedCommand : Obligations.StepRunsTheDecodedCommand := by
  have runs : ∀ (s : State) (w : Word) (i : Instr) (rest : List HostEvent),
      s.pending = .tx (.wr 0 w) :: rest → s.status.fault = false → decode w = .command i →
      step s = exec i (s.takeEvent rest) := fun s w i rest hp hf hw =>
    (step_wr_cmd hp).trans (command_of_decoded (s := s.takeEvent rest) hw hf)
  refine ⟨runs, fun s i hf => ?fetched⟩
  case fetched =>
    have hword : BitVec.ofNat 32 ((encode i).toNat % 2 ^ 32) = encode i := by
      rw [Nat.mod_eq_of_lt (encode i).isLt, BitVec.ofNat_toNat, BitVec.setWidth_eq]
    have hp : (s.withFetchWord 32 (encode i).toNat).pending = .tx (.wr 0 (encode i)) :: s.pending := by
      rw [State.withFetchWord, hword, Reg.number]
    exact runs _ _ i s.pending hp hf ((decode_iff _ i).mpr rfl)

/-- With FAULT set only the words of CLEAR and FACK are not dropped (R191). -/
theorem takeCommand_fault_dropped {w : Word} (hclear : w ≠ encode .clear) (hfack : w ≠ encode .fack) :
    takeCommand true w = .dropped := by
  cases h : takeCommand true w with
  | dropped => rfl
  | illegal => exact absurd h (takeCommand_fault_not_illegal w)
  | run i =>
    have hw := takeCommand_run h
    rcases takeCommand_fault h with rfl | rfl
    · exact absurd hw hclear
    · exact absurd hw hfack

/-- Settles O9: the word is dropped by `takeCommand_fault_dropped`, or is one of the two that run. -/
theorem wordsAreDroppedWhileFaultIsSet : Obligations.WordsAreDroppedWhileFaultIsSet := by
  intro s w rest hp hf
  have hf' : (s.takeEvent rest).status.fault = true := hf
  rw [step_wr_cmd hp, command, hf']
  refine ⟨fun hclear hfack => ?dropped, ?clear, ?fack⟩
  case dropped =>
    rw [takeCommand_fault_dropped hclear hfack]
    rfl
  case clear =>
    rintro rfl
    rfl
  case fack =>
    rintro rfl
    rfl

/-! ### Every step has an outcome (R15, R190, R204) -/

theorem Inv.exec_completes (h : Inv s) (i : Instr) : ∃ t, Machine.exec i s = .next t :=
  Machine.exec_completes fun _ ht => (h.codeList ht).imp fun _ hl => hl.1

theorem Inv.command_completes (h : Inv s) (w : Word) : ∃ t, command w s = .next t := by
  unfold command
  split
  · exact h.exec_completes _
  · exact ⟨_, rfl⟩
  · exact ⟨_, rfl⟩

theorem Inv.transact_completes (h : Inv s) (tr : Transaction) : ∃ t, transact tr s = .next t := by
  cases tr with
  | rd | mr | mw => exact ⟨_, rfl⟩
  | wr r v =>
    simp only [transact]
    split
    · exact h.command_completes v
    · exact ⟨_, rfl⟩

/-- Settles O51: by the kind of the next event; only a command could stop, and under the invariant none does. -/
theorem stepNeverStops : Obligations.StepNeverStops := by
  intro s h
  unfold step
  split
  · exact ⟨_, rfl⟩
  · exact ⟨_, rfl⟩
  · next tr rest _ => exact (h.takeEvent rest).transact_completes tr

/-! ### Completing and faulting (R193, R195) -/

/-- The table of R195: the stage flag a command requires, and the STATUS it leaves when it completes. -/
def Staged (before after : Status) : Instr → Prop
  | .clear => after = Status.reset
  | .analyze => after = before.afterAnalyze
  | .build => before.ftValid = true ∧ after = before.afterBuild
  | .gencode => before.treeValid = true ∧ after = before.afterGencode
  | .pack | .unpack => before.ctValid = true ∧ after = before
  | .fack => after = { before with fault := false }

/-- A command passes the row of R195 that is its own, or enters a fault that is not ILLEGAL_CMD. -/
theorem exec_staged_or_raised {i : Instr} (h : exec i s = .next t) :
    Staged s.status t.status i ∨ ∃ r : Raised, r.cause ≠ .illegalCmd ∧ t = s.raise r := by
  cases i with
  | clear | fack => exact .inl (Host.Outcome.next.inj h ▸ rfl)
  | analyze =>
    obtain ⟨_, rfl⟩ | ⟨_, rfl⟩ := execAnalyze_cases h
    · exact .inl rfl
    · exact .inr ⟨_, by decide, rfl⟩
  | build =>
    obtain ⟨hstage, rfl⟩ | ⟨_, rfl⟩ := execBuild_cases h
    · exact .inl ⟨hstage, rfl⟩
    · exact .inr ⟨_, by decide, rfl⟩
  | gencode =>
    obtain ⟨hstage, l, _, rfl⟩ | ⟨_, rfl⟩ := execGencode_cases h
    · exact .inl ⟨hstage, rfl⟩
    · exact .inr ⟨_, by decide, rfl⟩
  | pack =>
    obtain ⟨hstage, _, p, _, _, rfl⟩ | ⟨r, hcause, rfl⟩ := execPack_cases h
    · exact .inl ⟨hstage, rfl⟩
    · exact .inr ⟨r, fun hr => by simp [hr] at hcause, rfl⟩
  | unpack =>
    obtain ⟨hstage, _, u, out, _, _, _, rfl⟩ | ⟨r, hcause, rfl⟩ := execUnpack_cases h
    · exact .inl ⟨hstage, rfl⟩
    · exact .inr ⟨r, fun hr => by simp [hr] at hcause, rfl⟩

/-- No row of R195 sets FAULT. -/
theorem Staged.fault_clear {before after : Status} {i : Instr} (h : Staged before after i)
    (hf : before.fault = false) : after.fault = false := by
  cases i with
  | clear | fack => exact h ▸ rfl
  | analyze => exact h ▸ hf
  | build | gencode | pack | unpack => exact h.2 ▸ hf

/-- ILLEGAL_CMD alone has code 1 (R216). -/
theorem Cause.two_le_code {c : Cause} (h : c ≠ .illegalCmd) : 2 ≤ c.code.toNat := by
  cases c with
  | illegalCmd => exact absurd rfl h
  | seq | range | noCode | dstCap | format | unterminated => decide

/-- Settles O42: no completed command sets FAULT, and fault entry writes nothing else. -/
theorem faultingCommandChangesOnlyFaultRegisters : Obligations.FaultingCommandChangesOnlyFaultRegisters := by
  intro i s t h hs ht
  rcases exec_staged_or_raised h with hstaged | ⟨r, hcause, rfl⟩
  · simp [hstaged.fault_clear hs] at ht
  · exact ⟨rfl, Cause.two_le_code hcause, r.cause.code_bounds.2⟩

/-- Settles O44: a command that leaves FAULT clear passed its row of R195, read here with FAULT clear. -/
theorem stageFlagsOfCompletedCommands : Obligations.StageFlagsOfCompletedCommands := by
  intro i s t h hs ht
  rcases exec_staged_or_raised h with hstaged | ⟨r, _, rfl⟩
  · cases i with
    | clear | gencode | pack | unpack => exact hstaged
    | analyze => exact Eq.trans hstaged (by rw [Status.afterAnalyze, hs])
    | build =>
      obtain ⟨hstage, hafter⟩ := hstaged
      exact ⟨hstage, by rw [hafter, Status.afterBuild, hs, hstage]⟩
    | fack => exact Eq.trans hstaged (by rw [← hs])
  · simp at ht

/-! ### CLEAR and FACK (R197, R198) -/

/-- Settles O21: `execClear` is an acknowledged fault, clear flags, emptied tables and zero results, field by
field the state of R197. -/
theorem clearResult : Obligations.ClearResult := fun _ => rfl

/-- Settles O22: the state of R198 is that of `State.acknowledge`. -/
theorem fackResult : Obligations.FackResult := fun _ => rfl

end Sys2Proof.Machine
end

section
/-! The statements of 45_control.md on compress and decompress, settled: the states between the commands of
compress (R199), then what they give of a text (R201, R202). -/

namespace Sys2Proof.Machine

variable {s s' t₁ t₂ t₃ t₄ : State} {l : List RevEntry}

/-! ### The states between the commands of compress (R199) -/

/-- The state after ANALYZE and BUILD. -/
def State.treed (s : State) : State := (s.commitAnalyze s.sourceBytes).commitBuild

/-- The state after ANALYZE, BUILD and GENCODE, GENCODE having assigned `l`. -/
def State.coded (s : State) (l : List RevEntry) : State := s.treed.commitGencode l

/-- The assignments GENCODE makes after ANALYZE and BUILD. -/
def State.sourceCodes (s : State) : Option (List RevEntry) :=
  codeList s.treed.nodeAt s.treed.nnodes.toNat s.treed.root

/-- The codes depend on the text alone (R202). -/
theorem sourceCodes_congr (h : s.sourceBytes = s'.sourceBytes) : s.sourceCodes = s'.sourceCodes := by
  have hnode : s.treed.node = s'.treed.node := congrArg (fun text => buildTree (freqTable text)) h
  have hnnodes : s.treed.nnodes = s'.treed.nnodes :=
    congrArg (fun nodes : List Node => BitVec.ofNat 9 nodes.length) hnode
  have hroot : s.treed.root = s'.treed.root :=
    congrArg (fun nodes : List Node => rootOf nodes.length) hnode
  have hat : s.treed.nodeAt = s'.treed.nodeAt := by
    funext i
    rw [State.nodeAt, State.nodeAt, hnode, hnnodes]
  rw [State.sourceCodes, State.sourceCodes, hat, hnnodes, hroot]

/-- When ANALYZE completes, BUILD and GENCODE after it can only have gone through these states. -/
theorem coded_of_exec (ha : exec .analyze s = .next t₁) (hb : exec .build t₁ = .next t₂)
    (hg : exec .gencode t₂ = .next t₃) (hf : t₁.status.fault = false) :
    ∃ l, s.sourceCodes = some l ∧ t₃ = s.coded l := by
  obtain ⟨_, rfl⟩ | ⟨_, rfl⟩ := execAnalyze_cases ha
  · obtain rfl : t₂ = s.treed := exec_build_eq rfl hb
    obtain ⟨_, l, hl, rfl⟩ | ⟨htree, _⟩ := execGencode_cases (s := s.treed) hg
    · exact ⟨l, hl, rfl⟩
    · nomatch htree
  · simp at hf

/-- PACK after them can only have written the artifact of the text's payload. -/
theorem packed_of_exec (hp : exec .pack (s.coded l) = .next t₄) (hf : t₄.status.fault = false) :
    RegionsOk (s.coded l) ∧ ∃ p, payloadOf (codeTable l) s.sourceBytes = some p ∧
      (artifact p).length ≤ s.dcap.toNat ∧ t₄ = packed (s.coded l) p := by
  obtain ⟨_, hr, p, hpay, hl, rfl⟩ | ⟨r, _, rfl⟩ := execPack_cases hp
  · exact ⟨hr, p, hpay, hl, rfl⟩
  · simp at hf

/-! ### compress never faults (R199) -/

theorem Inv.treed (h : Inv s) (hs : s.src.toNat + s.slen.toNat ≤ s.params.memSize) : Inv s.treed := by
  have hl : s.sourceBytes.length ≤ s.params.memSize := by
    rw [sourceBytes_length]
    omega
  exact (h.commitAnalyze hl).commitBuild rfl

/-- A source text in MEM gets a code, and a payload under it. -/
theorem Inv.source_payload (h : Inv s) (hs : s.src.toNat + s.slen.toNat ≤ s.params.memSize) :
    ∃ l p, s.sourceCodes = some l ∧ Inv (s.coded l) ∧ payloadOf (codeTable l) s.sourceBytes = some p := by
  have ht := h.treed hs
  obtain ⟨l, hl, _⟩ := ht.codeList rfl
  have hcoded : Inv (s.coded l) := ht.commitGencode rfl hl
  obtain ⟨p, hp, _⟩ := hcoded.payload_of_counts rfl (text := s.sourceBytes) fun x =>
    (freqAt_freqTable_toNat (sourceBytes_length_lt s) x).symm
  exact ⟨l, p, hl, hcoded, hp⟩

/-- GENCODE and the commands before it leave the operand registers. -/
theorem regionsOk_coded (hr : RegionsOk s) : RegionsOk (s.coded l) := ⟨hr.src, hr.dst, hr.apart⟩

/-- R141: no code is longer than MAXLEN. -/
theorem Inv.code_length_le (h : Inv s) (hc : s.status.ctValid = true) {x : Symbol} {p : Bits}
    (hp : codeAt s.code x = some p) : p.length ≤ Config.maxLen := by
  have hk := keyCount_le s.freq
  have hnd := h.tables.ndist
  obtain ⟨_, hmany, hone, hnone, _⟩ := codeTableLaws s h hc
  by_cases h2 : 2 ≤ s.ndist.toNat
  · have hlen := ((hmany h2).1 x p hp).2
    show p.length ≤ 255
    omega
  · by_cases h1 : s.ndist.toNat = 1
    · rw [hone h1 x p hp]
      decide
    · rw [hnone (by omega) x] at hp
      simp at hp

/-- R199: the artifact of a text takes at most (SLEN·255) div 8 + 2 bytes. -/
theorem Inv.artifact_length_le (h : Inv s) (hc : s.status.ctValid = true) {text : List Symbol} {p : Bits}
    (hp : payloadOf s.code text = some p) : (artifact p).length ≤ text.length * 255 / 8 + 2 := by
  have hle := payloadOf_length_le (fun _ _ => h.code_length_le hc) hp
  rw [artifact_length]
  exact Nat.add_le_add_right (Nat.div_le_div_right hle) 2

/-- Settles O39: the stages of compress complete one after the other, and the codes are short enough for DCAP. -/
theorem compressNeverFaults : Obligations.CompressNeverFaults := by
  intro s h hf hr hcap
  obtain ⟨l, p, hl, hcoded, hp⟩ := h.source_payload hr.src
  have hfits := (hcoded.artifact_length_le rfl hp).trans (sourceBytes_length s ▸ hcap)
  refine ⟨_, s.treed, s.coded l, packed (s.coded l) p, execAnalyze_completes hr.src, execBuild_completes rfl,
    execGencode_completes rfl hl, execPack_completes rfl (regionsOk_coded hr) hp hfits, hf, hf, hf, ?flags⟩
  case flags => rw [← hf]; rfl

/-! ### The round trip (R201) -/

/-- Settles O40: PACK under the code of the text completes where the artifact fits, and UNPACK inverts it. -/
theorem codecRoundTrip : Obligations.CodecRoundTrip := by
  intro s h hf hr
  obtain ⟨l, p, hl, hcoded, hp⟩ := h.source_payload hr.src
  refine ⟨_, s.treed, s.coded l, p, execAnalyze_completes hr.src, execBuild_completes rfl,
    execGencode_completes rfl hl, hf, hf, hf, hp, fun hfits => ?pack⟩
  case pack =>
    rw [← artifact_length p] at hfits
    have hpack : exec .pack (s.coded l) = .next (packed (s.coded l) p) :=
      execPack_completes rfl (regionsOk_coded hr) hp hfits
    refine ⟨_, hpack, hf, fun d c hregions hc => ?unpack⟩
    have hok := codeTablesInverseAndPrefixFree _ hcoded rfl
    obtain ⟨u, hu, hstatus, htext, hrlen, _⟩ :=
      unpackInvertsPack _ _ d c hcoded.memSize_le hok hf hpack hf hregions hc
    exact ⟨u, hu, hstatus ▸ hf, hrlen, htext⟩

/-! ### compress is a function of the text (R202) -/

/-- Settles O41: equal texts give equal codes, so equal payloads and equal artifacts, which are what RLEN bytes at
DST hold (`sourceBytes_packed`). -/
theorem compressIsAFunctionOfTheText : Obligations.CompressIsAFunctionOfTheText := by
  intro s t₁ t₂ t₃ t₄ s' t₁' t₂' t₃' t₄' h h' _ _ ha hb hg hp hf₁ hf₄ ha' hb' hg' hp' hf₁' hf₄' htext
  obtain ⟨l, hl, rfl⟩ := coded_of_exec ha hb hg hf₁
  obtain ⟨l', hl', rfl⟩ := coded_of_exec ha' hb' hg' hf₁'
  obtain ⟨hr, p, hpay, hfits, rfl⟩ := packed_of_exec hp hf₄
  obtain ⟨hr', p', hpay', hfits', rfl⟩ := packed_of_exec hp' hf₄'
  have hsource : s.sourceBytes = s'.sourceBytes := htext
  obtain rfl : l = l' := Option.some.inj (by rw [← hl, ← hl', sourceCodes_congr hsource])
  obtain rfl : p = p' := Option.some.inj (by rw [← hpay, ← hpay', hsource])
  have hfreq : freqTable s.sourceBytes = freqTable s'.sourceBytes := congrArg freqTable hsource
  refine ⟨hfreq, congrArg buildTree hfreq, rfl, rfl, rfl, rfl, rfl, ?artifact⟩
  case artifact =>
    exact (sourceBytes_packed (s := s.coded l) h.memSize_le hr hfits 0 0).trans
      (sourceBytes_packed (s := s'.coded l) h'.memSize_le hr' hfits' 0 0).symm

end Sys2Proof.Machine
end

section
/-! The statement of 60_exceptions.md, settled: a recorded fault is not overwritten (R228). -/

namespace Sys2Proof.Machine

variable {s t : State}

/-- FAULT, ERR and ERRINFO, the record of a fault (R24, R227), are the same in both states. -/
structure SameFault (s t : State) : Prop where
  fault : t.status.fault = s.status.fault
  err : t.err = s.err
  errInfo : t.errInfo = s.errInfo

theorem sameFault_takeEvent (s : State) (rest : List HostEvent) : SameFault s (s.takeEvent rest) := ⟨rfl, rfl, rfl⟩

theorem SameFault.returning (h : SameFault s t) (v : Word) : SameFault s (t.returning v) :=
  ⟨h.fault, h.err, h.errInfo⟩

theorem SameFault.regWrite (h : SameFault s t) (r v : Word) : SameFault s (t.regWrite r v) := by
  rw [regWrite_frame]
  exact ⟨h.fault, h.err, h.errInfo⟩

theorem SameFault.hostMemWrite (h : SameFault s t) (a v : Word) : SameFault s (t.hostMemWrite a v) := by
  rw [hostMemWrite_frame]
  exact ⟨h.fault, h.err, h.errInfo⟩

/-- The two commands that run while FAULT is set leave no fault recorded. -/
theorem exec_clear_or_fack_clears_fault {i : Instr} (hi : i = .clear ∨ i = .fack) (h : exec i s = .next t) :
    t.status.fault = false ∧ t.err = 0 ∧ t.errInfo = 0 := by
  rcases hi with rfl | rfl
  all_goals
    obtain rfl := Host.Outcome.next.inj h
    exact ⟨rfl, rfl, rfl⟩

/-- Settles O43, by what a step can do: with FAULT set a word is dropped or is CLEAR or FACK, reset clears the
record, and every other event keeps it. -/
theorem faultsDoNotNest : Obligations.FaultsDoNotNest := by
  intro s t hf hstep
  have kept : SameFault s t → t.status.fault = true ∧ t.err = s.err ∧ t.errInfo = s.errInfo := fun h =>
    ⟨h.fault.trans hf, h.err, h.errInfo⟩
  obtain ⟨_, rfl⟩ | ⟨rest, hcases⟩ := step_cases hstep
  · exact .inl ⟨hf, rfl, rfl⟩
  have htake := sameFault_takeEvent s rest
  obtain ⟨hp, rfl⟩ | ⟨w, i, hp, hrun, hexec⟩ | ⟨w, _, _, rfl⟩ | ⟨w, _, hillegal, _⟩ | ⟨r, v, _, rfl⟩ | ⟨v, rfl⟩ |
    ⟨a, v, _, rfl⟩ := hcases
  · exact .inr ⟨rfl, rfl, rfl, .inl (by rw [hp]; rfl)⟩
  · rw [hf] at hrun
    have hi := takeCommand_fault hrun
    obtain ⟨hfault, herr, hinfo⟩ := exec_clear_or_fack_clears_fault hi hexec
    refine .inr ⟨hfault, herr, hinfo, .inr ?_⟩
    rw [hp, takeCommand_run hrun]
    rcases hi with rfl | rfl
    · exact .inl rfl
    · exact .inr rfl
  · exact .inl (kept htake)
  · exact absurd (hf ▸ hillegal) (takeCommand_fault_not_illegal w)
  · exact .inl (kept (htake.regWrite r v))
  · exact .inl (kept (htake.returning v))
  · exact .inl (kept (htake.hostMemWrite a v))

end Sys2Proof.Machine
end

section
/-! The statement of 70_reset_and_hazards.md, settled: the reset event (R245, R246) and the idle step (R11). -/

namespace Sys2Proof.Machine

variable {s : State}

theorem step_idle (hp : s.pending = []) : step s = .next s := by
  simp only [step, hp]

theorem step_reset {rest : List HostEvent} (hp : s.pending = .reset :: rest) :
    step s = .next (s.takeEvent rest).resetEvent := by
  simp only [step, hp]

/-- While nothing has been written, every byte of MEM is the free value of the epoch (R50). -/
theorem readByte_of_mem_empty (hm : s.mem = []) (a : Nat) : s.readByte a = Config.unwrittenByte s.memEpoch a := by
  rw [State.readByte, hm, cellGet, Option.getD_none]

theorem readByte_resetEvent (s : State) (a : Nat) :
    s.resetEvent.readByte a = Config.unwrittenByte (s.memEpoch + 1) a :=
  readByte_of_mem_empty (resetEvent_mem s) a

/-- Settles O20: the step on each of the two kinds of pending list; MEM is empty at reset and after the event. -/
theorem resetEventAndIdleStep : Obligations.ResetEventAndIdleStep := by
  refine ⟨readByte_of_mem_empty rfl, fun s rest hp => step_reset hp, fun s t rest hp hstep => ?_,
    fun s hp => step_idle hp⟩
  obtain rfl : (s.takeEvent rest).resetEvent = t := Host.Outcome.next.inj ((step_reset hp).symm.trans hstep)
  exact readByte_resetEvent (s.takeEvent rest)

end Sys2Proof.Machine
end
